-- ==== Sys2Proof/Word.lean ====
section
/-! DEFINITION. The word types of the block (R9, R12, R63). -/

namespace Sys2Proof

/-- A word: 32 bits, unsigned (R9). -/
abbrev Word := BitVec 32

/-- A 160-bit vector, the vector view of the shift register (R12): bit `32*i + j` is bit `j` of `x[i]`. -/
abbrev Vec := BitVec 160

/-- A byte of the `ROM` and `IMG` spaces (R40). -/
abbrev Byte := BitVec 8

/-- A command operand: a 64-bit unsigned integer (R63; `DW` of R6). -/
abbrev Operand := BitVec 64

end Sys2Proof
end

