-- ==== Sys2Proof/Config.lean ====
section
/-! DEFINITION. The configuration of a build (R6) and the algorithm constants (R7). The parameters that
the spec marks OPEN (`N`, `FALLBACK`, `SEED_MIX`) and the table granularity `W` are fields of `Config`, so
that every claim can be made for every build. No constant here is a free value: the spec leaves no result open
(93_implementation_defined.md, end of section 2). -/

namespace Sys2Proof

/-- The strategy beyond the table's range (R6, `FALLBACK`). -/
inductive Fallback where
  | squaring
  | linear
deriving DecidableEq, Repr

/-- A value built from `t0` and `t1` with `+` (mod 2^32) and `^` only (R113, constraint (a)). -/
inductive MixTerm where
  | t0
  | t1
  | add (a b : MixTerm)
  | xor (a b : MixTerm)
deriving DecidableEq, Repr

/-- One of the six registers that the seed mixing writes (R113). -/
inductive MixReg where
  | x0 | x1 | x2 | x3 | x4 | d
deriving DecidableEq, Repr

/-- How a term enters its register: "additively/XOR" (R113). -/
inductive MixArith where
  | add
  | xor
deriving DecidableEq, Repr

/-- One assignment `reg <- reg + term` or `reg <- reg ^ term` of the seed mixing. -/
structure MixOp where
  reg   : MixReg
  arith : MixArith
  term  : MixTerm
deriving DecidableEq, Repr

/-- The parameter `SEED_MIX` (R113): a fixed sequence of assignments. It can say exactly the patterns that
constraint (a) allows, and it is plain data (DESIGN CHOICE, notes/assumptions/6.md). -/
abbrev SeedMix := List MixOp

/-- The parameters of a build (R6). `W` is `JUMP_LOG2`, `N` is `JUMP_MATRICES`. -/
structure Config where
  W        : Nat
  N        : Nat
  fallback : Fallback
  seedMix  : SeedMix
deriving DecidableEq, Repr

/-- `SEED_MIX_default` of R113 (PRESUMED by the spec itself, its G1; notes/assumptions/5.md). -/
def Config.seedMixDefault : SeedMix :=
  [ ⟨.x0, .add, .t0⟩, ⟨.x1, .xor, .t0⟩, ⟨.x2, .add, .t1⟩, ⟨.x3, .xor, .t1⟩, ⟨.x4, .add, .t0⟩,
    ⟨.d, .add, .add .t1 .t0⟩ ]

/-- The default build: `W = 2`, `N = 32`, `FALLBACK = squaring`, `SEED_MIX` the default (R6, D5 to D7, D9). -/
def Config.default : Config :=
  { W := 2, N := 32, fallback := .squaring, seedMix := Config.seedMixDefault }

/-- The constraints of R6 on the table parameters, `1 <= W <= 64` and `N >= 1`. -/
def Config.ok (c : Config) : Bool := decide (1 ≤ c.W) && decide (c.W ≤ 64) && decide (1 ≤ c.N)

/-- `WEYL` of R7. -/
def Config.weyl : Word := 362437#32

/-- `SUBSEQ_LOG2` of R6: one subsequence is `2^67` outputs. -/
def Config.subseqLog2 : Nat := 67

/-- `X_INIT[0]` of R7. -/
def Config.xInit0 : Word := 123456789#32
/-- `X_INIT[1]` of R7. -/
def Config.xInit1 : Word := 362436069#32
/-- `X_INIT[2]` of R7. -/
def Config.xInit2 : Word := 521288629#32
/-- `X_INIT[3]` of R7. -/
def Config.xInit3 : Word := 88675123#32
/-- `X_INIT[4]` of R7. -/
def Config.xInit4 : Word := 5783321#32
/-- `D_INIT` of R7. -/
def Config.dInit : Word := 6615241#32
/-- `SEED_XOR0` of R7, makes `s0`. -/
def Config.seedXor0 : Word := 0xAAD26B49#32
/-- `SEED_XOR1` of R7, makes `s1`. -/
def Config.seedXor1 : Word := 0xF7DCEFDD#32
/-- `SEED_MUL0` of R7, makes `t0`. -/
def Config.seedMul0 : Word := 1099087573#32
/-- `SEED_MUL1` of R7, makes `t1`. -/
def Config.seedMul1 : Word := 2591861531#32

end Sys2Proof
end

