-- ==== Sys2Proof/Syntax.lean ====
section
/-! DEFINITION. The syntax: the twelve commands (R62), the four micro-operations (R66) and the four
reserved opcodes (R65), one constructor per row of spec/opcode_table.json, and the pseudo-instructions (R70). -/

namespace Sys2Proof

/-- The table selector `tsel` of a micro-operation (R67): 0 `STEP`, 1 `SUB`. -/
inductive TableSel where
  | step
  | sub
deriving DecidableEq, Repr

/-- The instructions: commands, micro-operations, reserved opcodes. Operand fields that a format does not use are
ignored (R61), so they are not part of the syntax. -/
inductive Instr where
  /-- INIT `seed, subsequence, offset` (R111). -/
  | init (seed subsequence offset : Operand)
  /-- NEXT (R110). -/
  | next
  /-- SKIP `n` (R115). -/
  | skip (n : Operand)
  /-- SKIPSUB `n` (R117). -/
  | skipsub (n : Operand)
  /-- GCGETF (R130). -/
  | gcgetf
  /-- GCGETD (R131). -/
  | gcgetd
  /-- GCPUTF `bits` (R132); `C[63:32]` is ignored. -/
  | gcputf (bits : Word)
  /-- GCPUTD `bits` (R133). -/
  | gcputd (bits : Operand)
  /-- GCCLRF (R134). -/
  | gcclrf
  /-- GCCLRD (R135). -/
  | gcclrd
  /-- SAVE (R136). -/
  | save
  /-- RESTORE (R137); its image stands in the `IMG` space. -/
  | restore
  /-- MULVEC.T `tsel, mi` (R81). -/
  | mulvecT (tsel : TableSel) (mi : Nat)
  /-- MULVEC.A (R82). -/
  | mulvecA
  /-- LOADA `tsel, mi` (R94). -/
  | loada (tsel : TableSel) (mi : Nat)
  /-- SQUAREA (R96). -/
  | squarea
  /-- Reserved opcode `0x0` (R65). -/
  | reserved0
  /-- Reserved opcode `0xD` (R65). -/
  | reservedD
  /-- Reserved opcode `0xE` (R65). -/
  | reservedE
  /-- Reserved opcode `0xF` (R65). -/
  | reservedF
deriving DecidableEq, Repr

/-- The two spaces of spec/opcode_table.json: a command is accepted on the command port, a micro-operation is
internal to the block (R66). -/
def Instr.isCommand : Instr → Bool
  | .init _ _ _ => true
  | .next => true
  | .skip _ => true
  | .skipsub _ => true
  | .gcgetf => true
  | .gcgetd => true
  | .gcputf _ => true
  | .gcputd _ => true
  | .gcclrf => true
  | .gcclrd => true
  | .save => true
  | .restore => true
  | .mulvecT _ _ => false
  | .mulvecA => false
  | .loada _ _ => false
  | .squarea => false
  | .reserved0 => true
  | .reservedD => true
  | .reservedE => true
  | .reservedF => true

/-- The pseudo-instructions of R70. -/
inductive Pseudo where
  | construct (seed subsequence offset : Operand)
  | init0 (seed : Operand)
  | advance
  | discard (n : Operand)
  | discardsub (n : Operand)
  | nextn (k : Nat)
deriving DecidableEq, Repr

/-- The expansion column of R70. -/
def Pseudo.expand : Pseudo → List Instr
  | .construct s q o => [.init s q o]
  | .init0 s => [.init s 0#64 0#64]
  | .advance => [.next]
  | .discard n => [.skip n]
  | .discardsub n => [.skipsub n]
  | .nextn k => List.replicate k .next

end Sys2Proof
end

