-- ==== Sys2Proof/WellFormed.lean ====
section
/-! DEFINITION. Well-formed instructions. The one check that the syntax does not carry is the range of a
matrix index, which depends on the build's table depth `N` (R67). -/

namespace Sys2Proof

/-- `mi` of a table micro-operation is in `0..N-1` (R67, R81, R94); every operand value of every command is legal
(R63, R65). -/
def Instr.wf (c : Config) : Instr → Bool
  | .init _ _ _ => true
  | .next => true
  | .skip _ => true
  | .skipsub _ => true
  | .gcgetf => true
  | .gcgetd => true
  | .gcputf _ => true
  | .gcputd _ => true
  | .gcclrf => true
  | .gcclrd => true
  | .save => true
  | .restore => true
  | .mulvecT _ mi => decide (mi < c.N)
  | .mulvecA => true
  | .loada _ mi => decide (mi < c.N)
  | .squarea => true
  | .reserved0 => true
  | .reservedD => true
  | .reservedE => true
  | .reservedF => true

end Sys2Proof
end

