-- ==== Sys2Proof/Decode.lean ====
section
/-! DEFINITION. Decoding of the 196-bit command word (R61, R62, R65, R71) and of the micro-operation word
(R66, R67), and after it the encoder from the same tables. -/

namespace Sys2Proof

/-- Why a word is no instruction of the build. Command words are never refused: their sixteen opcodes are all
defined or reserved (R62, R65). -/
inductive DecodeError where
  /-- The micro-operation word is wider than `MIW + 3` bits (R67). -/
  | microOpTooWide
  /-- `mi >= N`: never issued, "a model should refuse them" (R67, V10). -/
  | tableIndexOutOfRange
deriving DecidableEq, Repr

/-! ### Fields of the command word (R61) -/

/-- `op`, bits 195:192. -/
def opField (w : BitVec 196) : BitVec 4 := w.extractLsb' 192 4
/-- `A`, bits 191:128. -/
def aField (w : BitVec 196) : Operand := w.extractLsb' 128 64
/-- `B`, bits 127:64. -/
def bField (w : BitVec 196) : Operand := w.extractLsb' 64 64
/-- `C`, bits 63:0. -/
def cField (w : BitVec 196) : Operand := w.extractLsb' 0 64

/-- Decode a command word: `op` alone selects the rule (R62, R71); unused fields are ignored (R61); GCPUTF takes
`C[31:0]` (R63). The last case is `op = 0xF`. -/
def decodeCommand (w : BitVec 196) : Instr :=
  match (opField w).toNat with
  | 0x0 => .reserved0
  | 0x1 => .init (aField w) (bField w) (cField w)
  | 0x2 => .next
  | 0x3 => .skip (cField w)
  | 0x4 => .skipsub (cField w)
  | 0x5 => .gcgetf
  | 0x6 => .gcgetd
  | 0x7 => .gcputf ((cField w).extractLsb' 0 32)
  | 0x8 => .gcputd (cField w)
  | 0x9 => .gcclrf
  | 0xA => .gcclrd
  | 0xB => .save
  | 0xC => .restore
  | 0xD => .reservedD
  | 0xE => .reservedE
  | _   => .reservedF

/-! ### The micro-operation word (R67) -/

/-- `ceil(log2(n))`, with 0 for `n <= 1`. -/
def ceilLog2 (n : Nat) : Nat := if n ≤ 1 then 0 else Nat.log2 (n - 1) + 1

/-- `MIW = max(1, ceil(log2(N)))` (R67). -/
def miw (n : Nat) : Nat := max 1 (ceilLog2 n)

/-- The field `tsel` as a number (R67). -/
def tselBit : TableSel → Nat
  | .step => 0
  | .sub => 1

/-- The table that a `tsel` bit selects (R67). -/
def tselOf (b : Nat) : TableSel := if b = 0 then .step else .sub

/-- Decode a micro-operation word of a build with table depth `n` (R66, R67). `mop` is bits `MIW+2 : MIW+1`, `tsel`
bit `MIW`, `mi` bits `MIW-1 : 0`. All four `mop` values are defined; the last case is `mop = 3`. -/
def decodeMicroOp (n w : Nat) : Except DecodeError Instr :=
  if 2 ^ (miw n + 3) ≤ w then .error .microOpTooWide
  else
    let mop := w / 2 ^ (miw n + 1)
    let tsel := tselOf (w / 2 ^ miw n % 2)
    let mi := w % 2 ^ miw n
    match mop with
    | 0 => if mi < n then .ok (.mulvecT tsel mi) else .error .tableIndexOutOfRange
    | 1 => .ok .mulvecA
    | 2 => if mi < n then .ok (.loada tsel mi) else .error .tableIndexOutOfRange
    | _ => .ok .squarea

/-- A word of one of the two spaces (spec/opcode_table.json, "space"). -/
inductive CodeWord where
  | command (w : BitVec 196)
  | microOp (w : Nat)
deriving DecidableEq, Repr

/-- Decode a word of either space in a build. -/
def decode (c : Config) : CodeWord → Except DecodeError Instr
  | .command w => .ok (decodeCommand w)
  | .microOp w => decodeMicroOp c.N w

/-! ### The encoder -/

/-- A command word from its four fields (R61). -/
def commandWord (op : BitVec 4) (a b c : Operand) : BitVec 196 := op ++ a ++ b ++ c

/-- A micro-operation word from its three fields (R67). -/
def microOpWord (n mop tsel mi : Nat) : Nat := mop * 2 ^ (miw n + 1) + tsel * 2 ^ miw n + mi

/-- The canonical encoding, zero in every unused field (R61, R62, R66, R67). -/
def encode (c : Config) : Instr → CodeWord
  | .init a b o => .command (commandWord 0x1#4 a b o)
  | .next => .command (commandWord 0x2#4 0#64 0#64 0#64)
  | .skip n => .command (commandWord 0x3#4 0#64 0#64 n)
  | .skipsub n => .command (commandWord 0x4#4 0#64 0#64 n)
  | .gcgetf => .command (commandWord 0x5#4 0#64 0#64 0#64)
  | .gcgetd => .command (commandWord 0x6#4 0#64 0#64 0#64)
  | .gcputf b => .command (commandWord 0x7#4 0#64 0#64 (b.setWidth 64))
  | .gcputd b => .command (commandWord 0x8#4 0#64 0#64 b)
  | .gcclrf => .command (commandWord 0x9#4 0#64 0#64 0#64)
  | .gcclrd => .command (commandWord 0xA#4 0#64 0#64 0#64)
  | .save => .command (commandWord 0xB#4 0#64 0#64 0#64)
  | .restore => .command (commandWord 0xC#4 0#64 0#64 0#64)
  | .mulvecT t mi => .microOp (microOpWord c.N 0 (tselBit t) mi)
  | .mulvecA => .microOp (microOpWord c.N 1 0 0)
  | .loada t mi => .microOp (microOpWord c.N 2 (tselBit t) mi)
  | .squarea => .microOp (microOpWord c.N 3 0 0)
  | .reserved0 => .command (commandWord 0x0#4 0#64 0#64 0#64)
  | .reservedD => .command (commandWord 0xD#4 0#64 0#64 0#64)
  | .reservedE => .command (commandWord 0xE#4 0#64 0#64 0#64)
  | .reservedF => .command (commandWord 0xF#4 0#64 0#64 0#64)

/-- The instruction of a table row's word, numbered as spec/opcode_table.json numbers it: the micro-operation rows
have 8 bits (`N = 32`), the command rows 196 (notes/assumptions/25.md). -/
def decodeTableWord (nbits w : Nat) : Option Instr :=
  if nbits ≤ 8 then
    match decodeMicroOp Config.default.N w with
    | .ok i => some i
    | .error _ => none
  else if w < 2 ^ 196 then some (decodeCommand (BitVec.ofNat 196 w))
  else none

end Sys2Proof
end

