-- ==== Sys2Proof/Machine/State.lean ====
section
/-! DEFINITION. The state of one instance of the block, as plain data, and the state after reset. -/

namespace Sys2Proof.Machine

/-- The shift register: five 32-bit words, no aliases and no hard-wired value (R20). -/
structure ShiftReg where
  x0 : Word
  x1 : Word
  x2 : Word
  x3 : Word
  x4 : Word
deriving DecidableEq, Repr

/-- A JumpMatrix: 160 rows of 160 bits; row `r` is the image of the vector whose only set bit is `r` (R42). -/
abbrev JumpMatrix := List Vec

/-- A byte-addressed space as a list of (address, byte) pairs, addresses strictly rising, no entry equal to what an
unlisted address reads as. Used for the 44-byte `IMG` space (R40, R45). -/
abbrev Memory := List Host.Cell

/-- `rsp_status` (R150). Codes 4 to 15 are never produced, so there are exactly four values (V5). -/
inductive Status where
  | ok
  | illegalCommand
  | notReady
  | badImage
deriving DecidableEq, Repr

/-- A response on the response port (R60, R64). -/
structure Response where
  status : Status
  flag   : Bool
  data   : BitVec 64
  img    : BitVec 352
deriving DecidableEq, Repr

/-- The nine phases of the sequencer (R27, R100); their numbering is not specified (V3). -/
inductive Phase where
  | idle
  | digit
  | apply
  | fbLoad
  | fbAlign
  | fbBit
  | fbSq
  | fbLin
  | done
deriving DecidableEq, Repr

/-- The sequencer micro-state (R27). -/
structure Sequencer where
  /-- `sq.v`, 64 bits: the part of the distance not yet consumed. -/
  v     : BitVec 64
  /-- `sq.mi`, `ceil(log2(N+1))` bits, at least 1: index of the next table entry, `0..N`. Its width depends on the build's `N`,
  so it is a number here, and `Sequencer.fits` bounds it (notes/assumptions/27.md). -/
  mi    : Nat
  /-- `sq.rep`, `W` bits: applications of the current entry still to make. It stands in the low `W` of 64 bits, the most that
  `W` can be, and `Sequencer.fits` bounds it. -/
  rep   : BitVec 64
  /-- `sq.tsel`: the table in use. -/
  tsel  : TableSel
  /-- `sq.phase`. -/
  phase : Phase
  /-- `sq.k`, 7 bits: alignment squarings still to make, `0..W`. -/
  k     : BitVec 7
  /-- `sq.lin`, 64 bits: applications still to make in the linear fallback. -/
  lin   : BitVec 64
deriving DecidableEq, Repr

/-- The command that the engine has in progress while the sequencer runs one of its jumps. The spec gives the engine's
work (R95, R111, R115, R117) and no register for it; this is the model's own (notes/assumptions/14.md). -/
inductive Task where
  /-- INIT, its subsequence jump not finished; the offset jump follows. -/
  | initSub (subsequence offset : Operand)
  /-- INIT, its offset jump not finished. -/
  | initOff (offset : Operand)
  /-- SKIP `n`. -/
  | skip (n : Operand)
  /-- SKIPSUB `n`. -/
  | skipsub (n : Operand)
deriving DecidableEq, Repr

/-- What the outside presents to the block's inputs (R60), one entry at a time. -/
inductive PortInput where
  /-- `cmd_valid = 0` for one step. -/
  | idle
  /-- `cmd_valid = 1`: the command word and `img_in`, held until accepted. -/
  | command (word : BitVec 196) (img : BitVec 352)
  /-- `rst_n` asserted and released (R170). -/
  | reset
deriving DecidableEq, Repr

/-- The state of one instance. -/
structure State where
  /-- The build's parameters (R6). They are parameters and no command changes them (R31); they stand here because
  the host's form of `exec` has no other argument for them (notes/assumptions/3.md). -/
  build     : Config
  /-- `x[0..4]` (R20). -/
  x         : ShiftReg
  /-- The Weyl register `d` (R21). -/
  d         : Word
  /-- The single-precision cache slot; `none` is `gcF.valid = 0` (R22). -/
  gcF       : Option Word
  /-- The double-precision cache slot; `none` is `gcD.valid = 0` (R22). -/
  gcD       : Option (BitVec 64)
  /-- The `ready` bit (R23). -/
  ready     : Bool
  /-- The command in progress; `busy = 1` (R24) exactly when there is one. -/
  task      : Option Task
  /-- The sequencer micro-state (R27). -/
  sq        : Sequencer
  /-- The scratch matrix `ma` (R28), in every build, also one that needs none (DESIGN CHOICE, notes/assumptions/31.md). -/
  ma        : JumpMatrix
  /-- The scratch matrix `mb` (R28), in every build like `ma` (DESIGN CHOICE, notes/assumptions/31.md). -/
  mb        : JumpMatrix
  /-- Whether LOADA has written `ma` since reset (R82, V10); the model's own (notes/assumptions/11.md). -/
  maWritten : Bool
  /-- The multiplier's accumulator `acc` (R29). -/
  acc       : Vec
  /-- The micro-operation word that the sequencer has issued and the multiplier has not completed (R52, R67, R100). -/
  uop       : Option Nat
  /-- The `IMG` space, 44 bytes (R40, R45). -/
  img       : Memory
  /-- The response port; `some` while `rsp_valid = 1` (R60, R64). -/
  rsp       : Option Response
  /-- The input pins: what the owner presents, first entry first (R60, R170, R173). -/
  inputs    : List PortInput
deriving DecidableEq, Repr

/-- Why the machine stops with a fault. There is no such reason: "every accepted command has exactly one outcome" (93,
end of section 2), and the block's own three faults (R150) are responses after which it goes on, so they are next states
(notes/assumptions/10.md). No meaning raises one. -/
inductive Fault
deriving DecidableEq, Repr

/-- Why the model refuses a step. -/
inductive Refusal where
  /-- An instruction without a meaning: raised by no arm of `exec` in this model. Safe. -/
  | notModelled (mnemonic : String)
  /-- MULVEC.T or LOADA with `mi >= N` (R67, V10): raised by their meanings and by the fetch of such a
  micro-operation word. The sequencer never issues one. Safe. -/
  | tableIndexOutOfRange
  /-- MULVEC.A before any LOADA since reset: "a model should refuse it" (R82, V10). Raised by its meaning. The sequencer never
  issues one, so no run of the hardware meets it. Safe. -/
  | scratchUnwritten
  /-- A micro-operation word of more than `MIW + 3` bits (R67): raised by the fetch of a micro-operation. No such word
  exists in the hardware. Safe. -/
  | microOpTooWide
  /-- The build's parameters are none of this hardware, raised by `step`: `W` outside `1..64` or `N = 0` (V11), or a `SEED_MIX`
  that gives some seed an all-zero `x`, which R114 does not admit (U4). Safe. -/
  | notABuild
deriving DecidableEq, Repr

/-- The shift register with all words zero. -/
def ShiftReg.zero : ShiftReg := ⟨0#32, 0#32, 0#32, 0#32, 0#32⟩

/-- The all-zero matrix. -/
def JumpMatrix.zero : JumpMatrix := List.replicate 160 0#160

/-- The sequencer after reset: `IDLE` (R170); its other registers are unspecified and stand at zero here
(DESIGN CHOICE, notes/assumptions/8.md). -/
def Sequencer.reset : Sequencer :=
  { v := 0#64, mi := 0, rep := 0#64, tsel := .step, phase := .idle, k := 0#7, lin := 0#64 }

/-- The state after reset (R36, R170): `ready = 0`, `busy = 0`, phase `IDLE`, no response pending. The registers that
R36 gives no value stand at zero, the cache slots empty (DESIGN CHOICE, notes/assumptions/7.md and 8.md). The build is the
default one (R6), and nothing is presented on the inputs. -/
def State.reset : State :=
  { build := Config.default
    x := ShiftReg.zero
    d := 0#32
    gcF := none
    gcD := none
    ready := false
    task := none
    sq := Sequencer.reset
    ma := JumpMatrix.zero
    mb := JumpMatrix.zero
    maWritten := false
    acc := 0#160
    uop := none
    img := []
    rsp := none
    inputs := [] }

end Sys2Proof.Machine
end

