-- ==== Sys2Proof/Machine/Flags.lean ====
section
/-! DEFINITION. The flags and status of the block: the two validity flags (R22), `ready` and `busy` (R23, R24), the STATUS
pins (R25) and the response codes (R150). There are no condition codes (R37). -/

namespace Sys2Proof.Machine

/-- The `busy` bit: 1 from the acceptance of a command to its response (R24). -/
def State.busy (s : State) : Bool := s.task.isSome

/-- `cmd_ready` "equals `not busy`" (R60). -/
def State.cmdReady (s : State) : Bool := !s.busy

/-- `gcF.valid` (R22). -/
def State.gcFValid (s : State) : Bool := s.gcF.isSome

/-- `gcD.valid` (R22). -/
def State.gcDValid (s : State) : Bool := s.gcD.isSome

/-- `rsp_valid` (R60). -/
def State.rspValid (s : State) : Bool := s.rsp.isSome

/-- `cmd_valid` (R60). -/
def State.cmdValid (s : State) : Bool :=
  match s.inputs with
  | .command _ _ :: _ => true
  | _ => false

/-- STATUS: bit 0 `ready`, bit 1 `busy` (R25). -/
def State.status (s : State) : BitVec 2 := BitVec.ofBool s.busy ++ BitVec.ofBool s.ready

/-- The flag word of a slot in the image: 1 if valid, else 0 (R48). -/
def flagWord (valid : Bool) : Word := if valid then 1#32 else 0#32

/-- The value field of the single-precision slot in the image (R48). -/
def gcFField (g : Option Word) : Word := g.getD 0#32

/-- The value field of the double-precision slot in the image (R48). -/
def gcDField (g : Option (BitVec 64)) : BitVec 64 := g.getD 0#64

/-- `rsp_status` as a number (R150). -/
def Status.code : Status → BitVec 4
  | .ok => 0#4
  | .illegalCommand => 1#4
  | .notReady => 2#4
  | .badImage => 3#4

end Sys2Proof.Machine
end

