-- ==== Sys2Proof/Machine/Operands.lean ====
section
/-! DEFINITION. Operand forms: the halves of a 64-bit operand (R10, R63), the vector view of the shift register (R12), the
digits of a distance (R68), the unit of a table (R90) and the seed split (R112). -/

namespace Sys2Proof.Machine

/-- `lo32(n)` (R10). -/
def lo32 (n : Operand) : Word := n.extractLsb' 0 32

/-- `hi32(n)` (R10). -/
def hi32 (n : Operand) : Word := n.extractLsb' 32 32

/-- `zext_64` of a word (R9). -/
def zext64 (w : Word) : BitVec 64 := w.setWidth 64

/-- The vector view `xv = {x[4], x[3], x[2], x[1], x[0]}` (R12). -/
def ShiftReg.toVec (x : ShiftReg) : Vec := x.x4 ++ x.x3 ++ x.x2 ++ x.x1 ++ x.x0

/-- The five words of a vector, the inverse view (R12). -/
def ShiftReg.ofVec (v : Vec) : ShiftReg :=
  ⟨v.extractLsb' 0 32, v.extractLsb' 32 32, v.extractLsb' 64 32, v.extractLsb' 96 32, v.extractLsb' 128 32⟩

/-- The digit of a distance that the table phase takes next, `v[W-1:0]` (R68). -/
def digit (c : Config) (v : BitVec 64) : Nat := v.toNat % 2 ^ c.W

/-- log2 of the unit `U_t` of a table: 0 for `STEP`, 67 for `SUB` (R90). -/
def unitLog2 : TableSel → Nat
  | .step => 0
  | .sub => Config.subseqLog2

/-- The unit `U_t`: how many single steps one unit of distance is (R90). -/
def unit (t : TableSel) : Nat := 2 ^ unitLog2 t

/-- `s0` (R112): the low half of the seed (PRESUMED by the spec itself, its D8 and G2; notes/assumptions/5.md). -/
def seedS0 (seed : Operand) : Word := lo32 seed ^^^ Config.seedXor0

/-- `s1` (R112): the high half of the seed. -/
def seedS1 (seed : Operand) : Word := hi32 seed ^^^ Config.seedXor1

/-- `t0` (R112). -/
def seedT0 (seed : Operand) : Word := Config.seedMul0 * seedS0 seed

/-- `t1` (R112). -/
def seedT1 (seed : Operand) : Word := Config.seedMul1 * seedS1 seed

end Sys2Proof.Machine
end

