-- ==== Sys2Proof/Machine/Ops.lean ====
section
/-! DEFINITION. The named operations over memory, registers and the response port: little-endian accesses
(R46), the jump tables and their ROM (R41 to R44), the GF(2) functions (R80, R83), responding (R64), and raising a fault, which
is this block's exception (R150). There is no return from a fault (R157). -/

namespace Sys2Proof.Machine

/-! ### Byte-addressed spaces -/

/-- The size of the `IMG` space (R40). -/
def imgSize : Nat := 44

/-- What an address of `IMG` that no entry lists reads as. R36 leaves the buffer unspecified after reset; the model reads 0
(DESIGN CHOICE, notes/assumptions/9.md). Every rule writes the whole buffer before it reads it. -/
def Memory.unlisted : Byte := 0#8

/-- One byte of the space. -/
def Memory.read (m : Memory) (a : Nat) : Byte :=
  match m with
  | [] => Memory.unlisted
  | c :: m => if c.1 = a then c.2 else Memory.read m a

/-- The list without its entry for `a`, with a new entry for `a` in its place unless the value is the one an
unlisted address reads as. -/
def Memory.cellFor (a : Nat) (b : Byte) (m : Memory) : Memory :=
  if b = Memory.unlisted then m else (a, b) :: m

/-- Write one byte, keeping the canonical form. -/
def Memory.write (m : Memory) (a : Nat) (b : Byte) : Memory :=
  match m with
  | [] => Memory.cellFor a b []
  | c :: m =>
    if a < c.1 then Memory.cellFor a b (c :: m)
    else if c.1 = a then Memory.cellFor a b m
    else c :: Memory.write m a b

/-- The canonical form of the `IMG` space: addresses strictly rising and below 44, no entry equal to what an unlisted address
reads as. -/
def Memory.wf (m : Memory) : Bool :=
  match m with
  | [] => true
  | c :: m =>
    decide (c.1 < imgSize) && decide (c.2 ≠ Memory.unlisted) && m.all (fun e => decide (c.1 < e.1)) && Memory.wf m

/-- `MemRead(space, addr, n)`, little-endian: byte `b` has weight `2^(8*b)` (R46). The space is given by its read of one
byte. -/
def memRead (rd : Nat → Byte) (a : Nat) : (n : Nat) → BitVec (8 * n)
  | 0 => 0#0
  | n + 1 => memRead rd (a + 1) n ++ rd a

/-- `MemWrite(IMG, addr, n, v)`, little-endian: `byte[addr+b] = v[8*b+7 : 8*b]` (R46). -/
def memWrite (m : Memory) (a : Nat) {k : Nat} (v : BitVec k) : (n : Nat) → Memory
  | 0 => m
  | n + 1 => Memory.write (memWrite m a v n) (a + n) (v.extractLsb' (8 * n) 8)

/-- `MemRead(IMG, addr, n)`. -/
def imgRead (m : Memory) (a n : Nat) : BitVec (8 * n) := memRead m.read a n

/-- The buffer as the 352-bit port value: byte `b` is bits `[8*b+7 : 8*b]` (R45). -/
def imgPort (m : Memory) : BitVec 352 := imgRead m 0 imgSize

/-- Load the buffer from a 352-bit port value (R45). -/
def loadImg (m : Memory) (v : BitVec 352) : Memory := memWrite m 0 v imgSize

/-! ### The one-step operator -/

/-- `A` on the five words (R13): the shift-register part of NEXT (R110). -/
def ShiftReg.advance (x : ShiftReg) : ShiftReg :=
  let t := x.x0 ^^^ (x.x0 >>> 2)
  ⟨x.x1, x.x2, x.x3, x.x4, (x.x4 ^^^ (x.x4 <<< 4)) ^^^ (t ^^^ (t <<< 1))⟩

/-- `A` on the vector view (R13). -/
def stepA (v : Vec) : Vec := (ShiftReg.advance (ShiftReg.ofVec v)).toVec

/-! ### The GF(2) functions -/

/-- Row `r` of a matrix (R42). -/
def JumpMatrix.row (m : JumpMatrix) (r : Nat) : Vec := m.getD r 0#160

/-- The loop of `MulVec` from row `r` on, with its accumulator (R80). -/
def mulVecFrom (v : Vec) : (r : Nat) → (rows : JumpMatrix) → (acc : Vec) → Vec
  | _, [], acc => acc
  | r, row :: rows, acc => mulVecFrom v (r + 1) rows (if v.getLsbD r then acc ^^^ row else acc)

/-- `MulVec(M, v)`: the exclusive or of the rows whose input bit is set (R80). -/
def mulVec (m : JumpMatrix) (v : Vec) : Vec := mulVecFrom v 0 m 0#160

/-- `MulMat(a, b)`: each row of `a` becomes `MulVec(b, row)` (R83). -/
def mulMat (a b : JumpMatrix) : JumpMatrix := a.map (mulVec b)

/-- The square of a matrix: `MulMat(M, b)` with `b` a copy of `M` (R83, R96). -/
def squareMat (m : JumpMatrix) : JumpMatrix := mulMat m m

/-- `e_r` (R12). -/
def unitVec (r : Nat) : Vec := 1#160 <<< r

/-- The matrix that stores the linear map `f`: row `r` is `f(e_r)` (R42). -/
def matrixOf (f : Vec → Vec) : JumpMatrix := (List.range 160).map fun r => f (unitVec r)

/-- The matrix of `A^(2^k)`, by squaring the matrix of `A` `k` times (R44, "raising the base transition matrix to the
required powers"). -/
def powTwo : Nat → JumpMatrix
  | 0 => matrixOf stepA
  | k + 1 => squareMat (powTwo k)

/-! ### The jump tables -/

/-- `T_t[mi]`: `STEP[mi] = A^(2^(W*mi))` and `SUB[mi] = A^(2^(W*mi) * 2^67)` (R41, R44). -/
def table (c : Config) (t : TableSel) (mi : Nat) : JumpMatrix := powTwo (c.W * mi + unitLog2 t)

/-- Word `k` of a row (R42). -/
def rowWord (row : Vec) (k : Nat) : Word := row.extractLsb' (32 * k) 32

/-- `RomAddr(t, mi, r, k)` (R43). -/
def romAddr (c : Config) (t : TableSel) (mi r k : Nat) : Nat :=
  4 * (((tselBit t * c.N + mi) * 160 + r) * 5 + k)

/-- The size of the ROM: `2 * N * 3200` bytes (R40). -/
def romSize (c : Config) : Nat := 2 * c.N * 3200

/-- One byte of the ROM, the inverse of the address map of R43. No rule forms an address at or above `romSize` (R47), and
such an address reads 0 here. -/
def romByte (c : Config) (a : Nat) : Byte :=
  if a < romSize c then
    let w := a / 4
    let m := w / 800
    (rowWord ((table c (tselOf (m / c.N)) (m % c.N)).row (w / 5 % 160)) (w % 5)).extractLsb' (8 * (a % 4)) 8
  else 0#8

/-- `MemRead(ROM, addr, 4)` (R43, R47). -/
def romRead (c : Config) (a : Nat) : BitVec 32 := memRead (romByte c) a 4

/-! ### Micro-operations on the state -/

/-- A micro-operation as the sequencer issues it (R66). -/
inductive MicroOp where
  | mulvecT (tsel : TableSel) (mi : Nat)
  | mulvecA
  | loada (tsel : TableSel) (mi : Nat)
  | squarea
deriving DecidableEq, Repr

/-- The instruction of a micro-operation. -/
def MicroOp.toInstr : MicroOp → Instr
  | .mulvecT t mi => .mulvecT t mi
  | .mulvecA => .mulvecA
  | .loada t mi => .loada t mi
  | .squarea => .squarea

/-- The result of a `MulVec`: it is formed in `acc`, then the caller overwrites `x` (R29, R80). -/
def State.setVec (s : State) (v : Vec) : State := { s with acc := v, x := ShiftReg.ofVec v }

/-- `xv <- MulVec(M, xv)` (R81, R82). -/
def State.applyMatrix (s : State) (m : JumpMatrix) : State := s.setVec (mulVec m s.x.toVec)

/-- `ma <- M` (R94). -/
def State.loadMa (s : State) (m : JumpMatrix) : State := { s with ma := m, maWritten := true }

/-- `mb <- ma; ma <- MulMat(ma, mb)` (R96). -/
def State.squareMa (s : State) : State := { s with mb := s.ma, ma := squareMat s.ma }

/-- The effect of a micro-operation (R66). -/
def applyMicro (m : MicroOp) (s : State) : State :=
  match m with
  | .mulvecT t mi => s.applyMatrix (table s.build t mi)
  | .mulvecA => s.applyMatrix s.ma
  | .loada t mi => s.loadMa (table s.build t mi)
  | .squarea => s.squareMa

/-! ### Responding, and raising a fault -/

/-- The command in progress is complete: its response is on the port and `busy` is 0 (R24, R60, R64). -/
def State.answer (s : State) (r : Response) : State := { s with rsp := some r, task := none }

/-- `respond(status, flag, data)`, with `rsp_img = 0` (R11, R64). -/
def State.respond (s : State) (st : Status) (flag : Bool) (data : BitVec 64) : State :=
  s.answer ⟨st, flag, data, 0#352⟩

/-- `raise F` (R150): taking an exception. No architectural state changes, the command answers with the fault's code and
zeros, `busy` returns to 0, and the next command is accepted normally. Nothing is saved and no control is transferred. -/
def State.raise (s : State) (f : Status) : State := s.respond f false 0#64

end Sys2Proof.Machine
end

