-- ==== Sys2Proof/Machine/JumpAhead.lean ====
section
/-! DEFINITION. The family of 41_jump_ahead.md: LOADA, SQUAREA, and the internal operation JUMP as the sequence of
micro-operations that the algorithm issues (R95, R97, R98) and its effect on the state. LOADA and SQUAREA run in every build, also
one that needs no scratch matrices (DESIGN CHOICE, notes/assumptions/31.md). -/

namespace Sys2Proof.Machine

/-- LOADA `tsel, mi` (R94). `mi >= N` is never issued and refused (R67, V10). -/
def execLoada (t : TableSel) (mi : Nat) (s : State) : Host.Outcome State Fault Refusal :=
  if mi < s.build.N then .next (applyMicro (.loada t mi) s) else .refused .tableIndexOutOfRange

/-- SQUAREA (R96, "Exceptions: none"). Before a LOADA, where the sequencer never issues it, it squares what `ma` holds since reset
(DESIGN CHOICE against V10's advice to a model, notes/assumptions/11.md). -/
def execSquarea (s : State) : Host.Outcome State Fault Refusal := .next (applyMicro .squarea s)

/-- The loop of `FallbackSquaring` (R97), at most `fuel` times; 64 is enough, "bounded by 64 iterations" (R97, R102). -/
def squaringLoop : (fuel : Nat) → BitVec 64 → List MicroOp
  | 0, _ => []
  | fuel + 1, v =>
    (if v.getLsbD 0 then [.mulvecA] else []) ++
      (if v >>> 1 = 0#64 then [] else .squarea :: squaringLoop fuel (v >>> 1))

/-- `FallbackSquaring(t, v)` (R97). -/
def fallbackSquaring (c : Config) (t : TableSel) (v : BitVec 64) : List MicroOp :=
  .loada t (c.N - 1) :: (List.replicate c.W .squarea ++ squaringLoop 64 v)

/-- `FallbackLinear(t, v)` (R98). -/
def fallbackLinear (c : Config) (t : TableSel) (v : BitVec 64) : List MicroOp :=
  List.replicate (v.toNat * 2 ^ c.W) (.mulvecT t (c.N - 1))

/-- The fallback of the build (R95). -/
def fallback (c : Config) (t : TableSel) (v : BitVec 64) : List MicroOp :=
  match c.fallback with
  | .squaring => fallbackSquaring c t v
  | .linear => fallbackLinear c t v

/-- The table phase and what follows it (R95), with `left = N - mi` table entries left. -/
def tablePhase (c : Config) (t : TableSel) : (left mi : Nat) → BitVec 64 → List MicroOp
  | 0, _, v => if v = 0#64 then [] else fallback c t v
  | left + 1, mi, v =>
    if v = 0#64 then []
    else List.replicate (digit c v) (.mulvecT t mi) ++ tablePhase c t left (mi + 1) (v >>> c.W)

/-- The micro-operation trace of JUMP `t, v` (R95, R100). -/
def jumpTrace (c : Config) (t : TableSel) (v : BitVec 64) : List MicroOp := tablePhase c t c.N 0 v

/-- The effect of a sequence of micro-operations. -/
def runMicros (ms : List MicroOp) (s : State) : State := ms.foldl (fun s m => applyMicro m s) s

/-- JUMP `t, v` (R90, R95): `xv <- Jump(xv, v, t)`, as one transition (R8). -/
def jump (t : TableSel) (v : BitVec 64) (s : State) : State := runMicros (jumpTrace s.build t v) s

end Sys2Proof.Machine
end

