-- ==== Sys2Proof/Machine/Generator.lean ====
section
/-! DEFINITION. The family of 42_generator_core.md: NEXT, INIT, SKIP, SKIPSUB. -/

namespace Sys2Proof.Machine

/-- `d <- d + lo32(n) * 362437`, the Weyl update of a skip (R116). -/
def State.addWeyl (s : State) (n : Operand) : State := { s with d := s.d + lo32 n * Config.weyl }

/-- The output word of NEXT, `d + x[4]`, on the updated registers (R110). -/
def outputWord (x : ShiftReg) (d : Word) : Word := d + x.x4

/-- NEXT (R110). -/
def execNext (s : State) : Host.Outcome State Fault Refusal :=
  if s.ready then
    let x := s.x.advance
    let d := s.d + Config.weyl
    .next ({ s with x := x, d := d }.respond .ok false (zext64 (outputWord x d)))
  else .next (s.raise .notReady)

/-- The value of a mixing term (R113). -/
def termValue (t0 t1 : Word) : MixTerm → Word
  | .t0 => t0
  | .t1 => t1
  | .add a b => termValue t0 t1 a + termValue t0 t1 b
  | .xor a b => termValue t0 t1 a ^^^ termValue t0 t1 b

/-- `a + t` or `a ^ t` (R113). -/
def mixInto (m : MixArith) (a t : Word) : Word :=
  match m with
  | .add => a + t
  | .xor => a ^^^ t

/-- One assignment of the seed mixing (R113). -/
def mixOne (t0 t1 : Word) (o : MixOp) (r : ShiftReg × Word) : ShiftReg × Word :=
  match o.reg with
  | .x0 => ({ r.1 with x0 := mixInto o.arith r.1.x0 (termValue t0 t1 o.term) }, r.2)
  | .x1 => ({ r.1 with x1 := mixInto o.arith r.1.x1 (termValue t0 t1 o.term) }, r.2)
  | .x2 => ({ r.1 with x2 := mixInto o.arith r.1.x2 (termValue t0 t1 o.term) }, r.2)
  | .x3 => ({ r.1 with x3 := mixInto o.arith r.1.x3 (termValue t0 t1 o.term) }, r.2)
  | .x4 => ({ r.1 with x4 := mixInto o.arith r.1.x4 (termValue t0 t1 o.term) }, r.2)
  | .d => (r.1, mixInto o.arith r.2 (termValue t0 t1 o.term))

/-- `SEED_MIX(x[0..4], d, t0, t1)` (R113): the assignments of the pattern, in order. -/
def seedMix (m : SeedMix) (r : ShiftReg × Word) (t0 t1 : Word) : ShiftReg × Word :=
  m.foldl (fun r o => mixOne t0 t1 o r) r

/-- The fixed start values of INIT step 1 (R7, R111). -/
def startValues : ShiftReg × Word :=
  (⟨Config.xInit0, Config.xInit1, Config.xInit2, Config.xInit3, Config.xInit4⟩, Config.dInit)

/-- The low `j` bits of the five words are zero. -/
def ShiftReg.lowZero (j : Nat) (x : ShiftReg) : Bool :=
  [x.x0, x.x1, x.x2, x.x3, x.x4].all fun w => decide (w.toNat % 2 ^ j = 0)

/-- The mixing of `t0 = a` and `t1 = b` gives five words whose low `j` bits are zero. -/
def mixLowZero (m : SeedMix) (start : ShiftReg × Word) (j : Nat) (p : Nat × Nat) : Bool :=
  (seedMix m start (BitVec.ofNat 32 p.1) (BitVec.ofNat 32 p.2)).1.lowZero j

/-- From the pairs below `2^j` that leave the low `j` bits zero, those below `2^(j+1)` that leave the low `j + 1` bits zero. No
other pair can: bit `j` of a sum or an exclusive or depends on bits `0..j` of its arguments only. -/
def extendZero (m : SeedMix) (start : ShiftReg × Word) (j : Nat) (c : List (Nat × Nat)) : List (Nat × Nat) :=
  (c.flatMap fun p => [p, (p.1 + 2 ^ j, p.2), (p.1, p.2 + 2 ^ j), (p.1 + 2 ^ j, p.2 + 2 ^ j)]).filter
    (mixLowZero m start (j + 1))

/-- The search over `left` more bits finds no pair. -/
def noZeroMix (m : SeedMix) (start : ShiftReg × Word) : (left : Nat) → List (Nat × Nat) → Bool
  | 0, c => c.isEmpty
  | left + 1, c => c.isEmpty || noZeroMix m start left (extendZero m start (31 - left) c)

/-- Constraint (c) of R113, decided bit by bit from the least significant: no `t0`, `t1` gives an all-zero `x`. Any other
`SEED_MIX` "must be shown to have the same property before it is admitted" (R114). -/
def seedMixAdmitted (m : SeedMix) : Bool := noZeroMix m startValues 32 [(0, 0)]

/-- The parameters are a build of this hardware: the ranges of R6 (V11), and a `SEED_MIX` that R114 admits (U4). -/
def admitted (c : Config) : Bool := c.ok && seedMixAdmitted c.seedMix

/-- The registers after INIT steps 1 to 3, before the jumps (R111). -/
def seeded (c : Config) (seed : Operand) : ShiftReg × Word :=
  seedMix c.seedMix startValues (seedT0 seed) (seedT1 seed)

/-- INIT steps 1 to 3 on the state (R111). -/
def State.seedExpand (s : State) (seed : Operand) : State :=
  { s with x := (seeded s.build seed).1, d := (seeded s.build seed).2 }

/-- What INIT does after its two jumps: the Weyl advance of step 4, step 5 and the response (R111). -/
def State.finishInit (s : State) (offset : Operand) : State :=
  { s.addWeyl offset with gcF := none, gcD := none, ready := true }.respond .ok false 0#64

/-- What SKIP does after its jump (R115). -/
def State.finishSkip (s : State) (n : Operand) : State := (s.addWeyl n).respond .ok false 0#64

/-- What SKIPSUB does after its jump (R117). -/
def State.finishSkipsub (s : State) : State := s.respond .ok false 0#64

/-- INIT `seed, subsequence, offset` (R111): subsequence jump first, then the offset jump. Legal whether `ready` is 0 or
1. -/
def execInit (seed subsequence offset : Operand) (s : State) : Host.Outcome State Fault Refusal :=
  .next ((jump .step offset (jump .sub subsequence (s.seedExpand seed))).finishInit offset)

/-- SKIP `n` (R115). -/
def execSkip (n : Operand) (s : State) : Host.Outcome State Fault Refusal :=
  if s.ready then .next ((jump .step n s).finishSkip n) else .next (s.raise .notReady)

/-- SKIPSUB `n` (R117); `d` is neither read nor written. -/
def execSkipsub (n : Operand) (s : State) : Host.Outcome State Fault Refusal :=
  if s.ready then .next ((jump .sub n s).finishSkipsub) else .next (s.raise .notReady)

end Sys2Proof.Machine
end

