-- ==== Sys2Proof/Machine/Agents.lean ====
section
/-! DEFINITION. The micro-operation level (R8, R100): the jump-ahead sequencer, line by line, the engine's part of a command
that jumps, and the start of such a command. -/

namespace Sys2Proof.Machine

/-- The table and the distance of the jump that a command in progress needs next (R92). -/
def Task.sel : Task → TableSel
  | .initSub _ _ => .sub
  | .initOff _ => .step
  | .skip _ => .step
  | .skipsub _ => .sub

/-- The distance of that jump (R95). -/
def Task.distance : Task → Operand
  | .initSub q _ => q
  | .initOff o => o
  | .skip n => n
  | .skipsub n => n

/-- The counters whose width or range depends on the build are inside it (R27): `sq.mi` in `0..N`, `sq.rep` in `W` bits, `sq.k` in
`0..W`. -/
def Sequencer.fits (c : Config) (q : Sequencer) : Bool :=
  decide (q.mi ≤ c.N) && decide (q.rep.toNat < 2 ^ c.W) && decide (q.k.toNat ≤ c.W)

/-- The width of `sq.mi` in a build, `ceil(log2(N+1))` bits, at least 1 (R27). -/
def miRegWidth (n : Nat) : Nat := max 1 (ceilLog2 (n + 1))

/-- Issue a micro-operation to the multiplier: its word stands on the port until the multiplier has completed it (R52,
R67, R100). -/
def State.issue (s : State) (m : MicroOp) : State :=
  match encode s.build m.toInstr with
  | .microOp w => { s with uop := some w }
  | .command _ => s

/-- What the engine does when the sequencer signals the completion of a jump (R100, `DONE`). -/
def State.complete (s : State) (t : Task) : State :=
  match t with
  | .initSub _ o => { s with task := some (.initOff o) }
  | .initOff o => s.finishInit o
  | .skip n => s.finishSkip n
  | .skipsub _ => s.finishSkipsub

/-- One line of the sequencer's table (R100), for the command in progress. A line whose condition is `sq.mi = N` stands here
for `sq.mi >= N` (notes/assumptions/17.md). -/
def seqLine (t : Task) (s : State) : State :=
  match s.sq.phase with
  | .idle => { s with sq := { s.sq with tsel := t.sel, v := t.distance, mi := 0, phase := .digit } }
  | .digit =>
    if s.sq.v = 0#64 then { s with sq := { s.sq with phase := .done } }
    else if s.sq.mi < s.build.N then
      { s with sq := { s.sq with rep := BitVec.ofNat 64 (digit s.build s.sq.v), phase := .apply } }
    else
      match s.build.fallback with
      | .squaring => { s with sq := { s.sq with phase := .fbLoad } }
      | .linear => { s with sq := { s.sq with lin := s.sq.v <<< s.build.W, v := 0#64, phase := .fbLin } }
  | .apply =>
    if s.sq.rep = 0#64 then
      { s with sq := { s.sq with mi := s.sq.mi + 1, v := s.sq.v >>> s.build.W, phase := .digit } }
    else { s with sq := { s.sq with rep := s.sq.rep - 1#64 } }.issue (.mulvecT s.sq.tsel s.sq.mi)
  | .fbLoad =>
    { s with sq := { s.sq with k := BitVec.ofNat 7 s.build.W, phase := .fbAlign } }.issue (.loada s.sq.tsel (s.build.N - 1))
  | .fbAlign =>
    if s.sq.k = 0#7 then { s with sq := { s.sq with phase := .fbBit } }
    else { s with sq := { s.sq with k := s.sq.k - 1#7 } }.issue .squarea
  | .fbBit =>
    if s.sq.v.getLsbD 0 then
      { s with sq := { s.sq with v := s.sq.v >>> 1,
                                 phase := if s.sq.v >>> 1 = 0#64 then .done else .fbSq } }.issue .mulvecA
    else { s with sq := { s.sq with v := s.sq.v >>> 1, phase := .fbSq } }
  | .fbSq => { s with sq := { s.sq with phase := .fbBit } }.issue .squarea
  | .fbLin =>
    if s.sq.lin = 0#64 then { s with sq := { s.sq with phase := .done } }
    else { s with sq := { s.sq with lin := s.sq.lin - 1#64 } }.issue (.mulvecT s.sq.tsel (s.build.N - 1))
  | .done => { s with sq := { s.sq with phase := .idle } }.complete t

/-- INIT at the micro-operation level: steps 1 to 3, then its jumps are in progress (R111). -/
def beginInit (seed subsequence offset : Operand) (s : State) : Host.Outcome State Fault Refusal :=
  .next { s.seedExpand seed with task := some (.initSub subsequence offset) }

/-- SKIP at the micro-operation level (R115). -/
def beginSkip (n : Operand) (s : State) : Host.Outcome State Fault Refusal :=
  if s.ready then .next { s with task := some (.skip n) } else .next (s.raise .notReady)

/-- SKIPSUB at the micro-operation level (R117). -/
def beginSkipsub (n : Operand) (s : State) : Host.Outcome State Fault Refusal :=
  if s.ready then .next { s with task := some (.skipsub n) } else .next (s.raise .notReady)

end Sys2Proof.Machine
end

