-- ==== Sys2Proof/Machine/Cache.lean ====
section
/-! DEFINITION. The Gaussian-cache accessors of 43_state_access.md: GCGETF, GCGETD, GCPUTF, GCPUTD, GCCLRF, GCCLRD. -/

namespace Sys2Proof.Machine

/-- GCGETF (R130); reading does not clear. -/
def execGcgetf (s : State) : Host.Outcome State Fault Refusal :=
  if s.ready then .next (s.respond .ok s.gcFValid (zext64 (gcFField s.gcF))) else .next (s.raise .notReady)

/-- GCGETD (R131); reading does not clear. -/
def execGcgetd (s : State) : Host.Outcome State Fault Refusal :=
  if s.ready then .next (s.respond .ok s.gcDValid (gcDField s.gcD)) else .next (s.raise .notReady)

/-- GCPUTF `bits` (R132). -/
def execGcputf (bits : Word) (s : State) : Host.Outcome State Fault Refusal :=
  if s.ready then .next ({ s with gcF := some bits }.respond .ok false 0#64) else .next (s.raise .notReady)

/-- GCPUTD `bits` (R133). -/
def execGcputd (bits : Operand) (s : State) : Host.Outcome State Fault Refusal :=
  if s.ready then .next ({ s with gcD := some bits }.respond .ok false 0#64) else .next (s.raise .notReady)

/-- GCCLRF (R134). -/
def execGcclrf (s : State) : Host.Outcome State Fault Refusal :=
  if s.ready then .next ({ s with gcF := none }.respond .ok false 0#64) else .next (s.raise .notReady)

/-- GCCLRD (R135). -/
def execGcclrd (s : State) : Host.Outcome State Fault Refusal :=
  if s.ready then .next ({ s with gcD := none }.respond .ok false 0#64) else .next (s.raise .notReady)

end Sys2Proof.Machine
end

