-- ==== Sys2Proof/Machine/Image.lean ====
section
/-! DEFINITION. The persisted state of 43_state_access.md: SAVE and RESTORE, over the image layout of R48. -/

namespace Sys2Proof.Machine

/-- The ten writes of SAVE, in the order of R136, at the offsets of R48. -/
def saveImage (s : State) : Memory :=
  let m := memWrite s.img 0 s.x.x0 4
  let m := memWrite m 4 s.x.x1 4
  let m := memWrite m 8 s.x.x2 4
  let m := memWrite m 12 s.x.x3 4
  let m := memWrite m 16 s.x.x4 4
  let m := memWrite m 20 s.d 4
  let m := memWrite m 24 (flagWord s.gcFValid) 4
  let m := memWrite m 28 (flagWord s.gcDValid) 4
  let m := memWrite m 32 (gcFField s.gcF) 4
  memWrite m 36 (gcDField s.gcD) 8

/-- SAVE (R136). -/
def execSave (s : State) : Host.Outcome State Fault Refusal :=
  if s.ready then
    .next ({ s with img := saveImage s }.answer ⟨.ok, false, 0#64, imgPort (saveImage s)⟩)
  else .next (s.raise .notReady)

/-- The five `x` words of an image (R48). -/
def imgX (m : Memory) : ShiftReg :=
  ⟨imgRead m 0 4, imgRead m 4 4, imgRead m 8 4, imgRead m 12 4, imgRead m 16 4⟩

/-- `d` of an image (R48). -/
def imgD (m : Memory) : Word := imgRead m 20 4

/-- The flag word of `gcF` in an image (R48). -/
def imgFlagF (m : Memory) : Word := imgRead m 24 4

/-- The flag word of `gcD` in an image (R48). -/
def imgFlagD (m : Memory) : Word := imgRead m 28 4

/-- `gcF` of an image: its value bytes count only when the flag word is 1 (R48, R137). -/
def imgGcF (m : Memory) : Option Word := if imgFlagF m = 1#32 then some (imgRead m 32 4) else none

/-- `gcD` of an image. -/
def imgGcD (m : Memory) : Option (BitVec 64) := if imgFlagD m = 1#32 then some (imgRead m 36 8) else none

/-- `nx[0] | nx[1] | nx[2] | nx[3] | nx[4] = 0` (R137). -/
def ShiftReg.isZero (x : ShiftReg) : Bool := decide (x.x0 ||| x.x1 ||| x.x2 ||| x.x3 ||| x.x4 = 0#32)

/-- The two conditions of `BadImage` (R137, R153). -/
def imageBad (m : Memory) : Bool :=
  decide (1#32 < imgFlagF m) || decide (1#32 < imgFlagD m) || (imgX m).isZero

/-- RESTORE (R137): reads the image in the `IMG` space, where the owner has put it (R40, R45). Legal whether `ready` is 0
or 1. -/
def execRestore (s : State) : Host.Outcome State Fault Refusal :=
  if imageBad s.img then .next (s.raise .badImage)
  else
    .next ({ s with x := imgX s.img, d := imgD s.img, gcF := imgGcF s.img, gcD := imgGcD s.img,
                    ready := true }.respond .ok false 0#64)

end Sys2Proof.Machine
end

