-- ==== Sys2Proof/Machine/Multiplier.lean ====
section
/-! DEFINITION. The family of 40_gf2_matrix.md: MULVEC.T and MULVEC.A. MULVEC.A runs in every build, also
one that needs no scratch matrices (DESIGN CHOICE, notes/assumptions/31.md). -/

namespace Sys2Proof.Machine

/-- MULVEC.T `tsel, mi` (R81). `mi >= N` is never issued and refused (R67, V10). -/
def execMulvecT (t : TableSel) (mi : Nat) (s : State) : Host.Outcome State Fault Refusal :=
  if mi < s.build.N then .next (applyMicro (.mulvecT t mi) s) else .refused .tableIndexOutOfRange

/-- MULVEC.A (R82). "Issuing it with `ma` unwritten is not possible for the sequencer, and a model should refuse it" (R82; V10). -/
def execMulvecA (s : State) : Host.Outcome State Fault Refusal :=
  if s.maWritten then .next (applyMicro .mulvecA s) else .refused .scratchUnwritten

end Sys2Proof.Machine
end

