-- ==== Sys2Proof/Machine/Reserved.lean ====
section
/-! DEFINITION. The reserved opcodes (R65): each raises IllegalCommand, whatever `ready` and the operand fields are
(R151). -/

namespace Sys2Proof.Machine

/-- Opcode `0x0`. -/
def execReserved0 (s : State) : Host.Outcome State Fault Refusal := .next (s.raise .illegalCommand)

/-- Opcode `0xD`. -/
def execReservedD (s : State) : Host.Outcome State Fault Refusal := .next (s.raise .illegalCommand)

/-- Opcode `0xE`. -/
def execReservedE (s : State) : Host.Outcome State Fault Refusal := .next (s.raise .illegalCommand)

/-- Opcode `0xF`. -/
def execReservedF (s : State) : Host.Outcome State Fault Refusal := .next (s.raise .illegalCommand)

end Sys2Proof.Machine
end

