-- ==== Sys2Proof/Machine/Dispatch.lean ====
section
/-! DEFINITION. The meaning of each instruction, one arm a constructor. -/

namespace Sys2Proof.Machine

def exec (i : Instr) (s : State) : Host.Outcome State Fault Refusal :=
  match i with
  -- 42_generator_core.md
  | .init seed subsequence offset => Sys2Proof.Machine.execInit seed subsequence offset s
  | .next => Sys2Proof.Machine.execNext s
  | .skip n => Sys2Proof.Machine.execSkip n s
  | .skipsub n => Sys2Proof.Machine.execSkipsub n s
  -- 43_state_access.md
  | .gcgetf => Sys2Proof.Machine.execGcgetf s
  | .gcgetd => Sys2Proof.Machine.execGcgetd s
  | .gcputf bits => Sys2Proof.Machine.execGcputf bits s
  | .gcputd bits => Sys2Proof.Machine.execGcputd bits s
  | .gcclrf => Sys2Proof.Machine.execGcclrf s
  | .gcclrd => Sys2Proof.Machine.execGcclrd s
  | .save => Sys2Proof.Machine.execSave s
  | .restore => Sys2Proof.Machine.execRestore s
  -- 40_gf2_matrix.md and 41_jump_ahead.md
  | .mulvecT tsel mi => Sys2Proof.Machine.execMulvecT tsel mi s
  | .mulvecA => Sys2Proof.Machine.execMulvecA s
  | .loada tsel mi => Sys2Proof.Machine.execLoada tsel mi s
  | .squarea => Sys2Proof.Machine.execSquarea s
  -- 30_encoding.md, R65
  | .reserved0 => Sys2Proof.Machine.execReserved0 s
  | .reservedD => Sys2Proof.Machine.execReservedD s
  | .reservedE => Sys2Proof.Machine.execReservedE s
  | .reservedF => Sys2Proof.Machine.execReservedF s

end Sys2Proof.Machine
end

