-- ==== Sys2Proof/Machine/Port.lean ====
section
/-! DEFINITION. The input side of the block (R60): what a step does to the pins, the acceptance of a command, and reset
(R170). -/

namespace Sys2Proof.Machine

/-- The inputs after a step that accepts nothing: an `idle` entry lasts one step, a command is held until it is
accepted (R60). -/
def inputsTick : List PortInput → List PortInput
  | .idle :: rest => rest
  | l => l

/-- What every step does to the ports: the `rsp_valid` pulse of the step before ends (R60). -/
def State.tick (s : State) : State := { s with rsp := none, inputs := inputsTick s.inputs }

/-- The `IMG` space once a command is accepted: `img_in` is sampled for RESTORE and ignored by every other command
(R45, R60). -/
def sampledImg (i : Instr) (m : Memory) (img : BitVec 352) : Memory :=
  if i = .restore then loadImg m img else m

/-- The state in which an accepted command runs: it has left the input pins, the response of the command before is gone, and
the image of a RESTORE stands in `IMG`. -/
def State.accept (s : State) (w : BitVec 196) (img : BitVec 352) (rest : List PortInput) : State :=
  { s with rsp := none, inputs := rest, img := sampledImg (decodeCommand w) s.img img }

/-- The micro-operation has left the sequencer-to-multiplier port. -/
def State.takeUop (s : State) : State := { s.tick with uop := none }

/-- Reset (R170): the state of `State.reset`, whatever was in progress (V12); the build does not change (the ROM is
untouched), and what the owner presents next is still there. -/
def State.resetTo (s : State) (rest : List PortInput) : State :=
  { State.reset with build := s.build, inputs := rest }

end Sys2Proof.Machine
end

