-- ==== Sys2Proof/Machine/Cycle.lean ====
section
/-! DEFINITION. What one step is made of, at the command level and at the micro-operation level (R8): which agent moves, and
what the engine does with the command it accepts. -/

namespace Sys2Proof.Machine

/-- What the engine does with an accepted command at the micro-operation level: the three commands that jump start their
jump, every other command is one step at both levels. -/
def begin (i : Instr) (s : State) : Host.Outcome State Fault Refusal :=
  match i with
  | .init seed subsequence offset => beginInit seed subsequence offset s
  | .next => exec .next s
  | .skip n => beginSkip n s
  | .skipsub n => beginSkipsub n s
  | .gcgetf => exec .gcgetf s
  | .gcgetd => exec .gcgetd s
  | .gcputf bits => exec (.gcputf bits) s
  | .gcputd bits => exec (.gcputd bits) s
  | .gcclrf => exec .gcclrf s
  | .gcclrd => exec .gcclrd s
  | .save => exec .save s
  | .restore => exec .restore s
  | .mulvecT tsel mi => exec (.mulvecT tsel mi) s
  | .mulvecA => exec .mulvecA s
  | .loada tsel mi => exec (.loada tsel mi) s
  | .squarea => exec .squarea s
  | .reserved0 => exec .reserved0 s
  | .reservedD => exec .reservedD s
  | .reservedE => exec .reservedE s
  | .reservedF => exec .reservedF s

/-- The multiplier takes the micro-operation on its port (R52, R66). -/
def takeMicroOp (w : Nat) (s : State) : Host.Outcome State Fault Refusal :=
  match decodeMicroOp s.build.N w with
  | .ok i => exec i s.takeUop
  | .error .tableIndexOutOfRange => .refused .tableIndexOutOfRange
  | .error .microOpTooWide => .refused .microOpTooWide

/-- One step, given what the engine does with a command it accepts. In this order: reset; the micro-operation on the
multiplier's port; one line of the sequencer while a command is in progress; the command on the command port; nothing. -/
def stepWith (run : Instr → State → Host.Outcome State Fault Refusal) (s : State) :
    Host.Outcome State Fault Refusal :=
  if admitted s.build then
    match s.inputs with
    | .reset :: rest => .next (s.resetTo rest)
    | inputs =>
      match s.uop with
      | some w => takeMicroOp w s
      | none =>
        match s.task with
        | some t => .next (seqLine t s.tick)
        | none =>
          match inputs with
          | .command w img :: rest => run (decodeCommand w) (s.accept w img rest)
          | _ => .next s.tick
  else .refused .notABuild

end Sys2Proof.Machine
end

