-- ==== Sys2Proof/Machine/Step.lean ====
section
/-! DEFINITION. One step. There is no program counter and no fetch from memory (R26): a command is taken from the command
port, a micro-operation from the sequencer-to-multiplier port. `step` is the command level, the level of the model (R8): one
accepted command is one transition. `microStep` is the micro-operation level (R100): the three agents of R2 take turns. -/

namespace Sys2Proof.Machine

/-- One step at the command level (R8). -/
def step (s : State) : Host.Outcome State Fault Refusal := stepWith exec s

/-- One step at the micro-operation level (R100). -/
def microStep (s : State) : Host.Outcome State Fault Refusal := stepWith Sys2Proof.Machine.begin s

/-- `k` steps at the micro-operation level, stopping at the first refusal. -/
def microRun : Nat → State → Host.Outcome State Fault Refusal
  | 0, s => .next s
  | k + 1, s =>
    match microStep s with
    | .next t => microRun k t
    | .fault r => .fault r
    | .refused r => .refused r

/-- The words on the multiplier's port at the start of the first `k` micro-operation-level steps: the micro-operation trace
(R100). -/
def microTrace : Nat → State → List Nat
  | 0, _ => []
  | k + 1, s =>
    s.uop.toList ++
      match microStep s with
      | .next t => microTrace k t
      | .fault _ => []
      | .refused _ => []

/-- `s` with a table row's word where `step` takes its next instruction: a micro-operation word (the 8-bit rows) on the
multiplier's port, a command word first on the command port of a block that is not busy. The image presented beside a command
is what `IMG` already holds, so a RESTORE reads `IMG` as it is (notes/assumptions/25.md). -/
def State.withFetchWord (s : State) (nbits w : Nat) : State :=
  if nbits ≤ 8 then { s with uop := some w, inputs := s.inputs.dropWhile (fun p => decide (p = .reset)) }
  else
    { s with uop := none, task := none,
             inputs := .command (BitVec.ofNat 196 w) (imgPort s.img) :: s.inputs }

end Sys2Proof.Machine
end

