-- ==== Sys2Proof/Machine/Instances.lean ====
section
/-! DEFINITION. Several instances (R159): "A model of `k` instances is the product of `k` copies of the model of one, with any
interleaving". -/

namespace Sys2Proof.Machine

/-- One step of instance `q`; where there is no such instance, nothing moves. -/
def stepInstance (q : Nat) (ss : List State) : Host.Outcome (List State) Fault Refusal :=
  match ss[q]? with
  | none => .next ss
  | some s =>
    match step s with
    | .next t => .next (ss.set q t)
    | .fault r => .fault r
    | .refused r => .refused r

end Sys2Proof.Machine
end

