-- ==== Sys2Proof/Safety.lean ====
section
/-! DEFINITION. The terms in which claims are made: the invariants of a run, and runs of several instructions. -/

namespace Sys2Proof.Machine

/-- Constraint (c) of R113: the seed mixing never yields an all-zero `x` from the fixed start values, whatever the seed. -/
def NonDegenerate (m : SeedMix) : Prop :=
  ∀ t0 t1 : Word, (seedMix m startValues t0 t1).1 ≠ ShiftReg.zero

/-- The matrix stores a power of the one-step operator (R42, R84). -/
def StoresPower (m : JumpMatrix) : Prop := ∃ p : Nat, m = matrixOf (stepA^[p])

/-- The invariant of R32, with what it needs to pass through jumps: the shift register of a ready engine, or of one with a
command in progress, is not all zero; the running matrix, once written, stores a power of `A`. -/
structure State.Inv (s : State) : Prop where
  build   : admitted s.build = true
  nonzero : s.ready = true ∨ s.busy = true → s.x ≠ ShiftReg.zero
  scratch : s.maWritten = true → StoresPower s.ma

/-- A micro-operation that the sequencer may issue in this state: its index is in the table, and it does not read an
unwritten `ma` (R67, R82, R97, V10). -/
def MicroOp.issuable (s : State) : MicroOp → Prop
  | .mulvecT _ mi => mi < s.build.N
  | .mulvecA => s.maWritten = true
  | .loada _ mi => mi < s.build.N
  | .squarea => s.maWritten = true

/-- The multiplier is not given MULVEC.A while `ma` is unwritten: R82 says that this "is not possible for the sequencer", and
`State.IssueInv` implies it. -/
def State.readsWrittenMa (s : State) : Prop :=
  ∀ w, s.uop = some w → decodeMicroOp s.build.N w = .ok .mulvecA → s.maWritten = true

/-- A micro-operation stands on the multiplier's port as its encoded word. -/
def State.issuing (s : State) (m : MicroOp) : Prop :=
  ∃ w, encode s.build m.toInstr = .microOp w ∧ s.uop = some w

/-- The sequencer's discipline (R95, R100): what stands on the multiplier's port may be executed, and in the phases of the
squaring fallback `ma` has been written, or LOADA is on the port. -/
structure State.IssueInv (s : State) : Prop where
  build : admitted s.build = true
  port  : ∀ w, s.uop = some w → ∃ m : MicroOp, encode s.build m.toInstr = .microOp w ∧ m.issuable s
  idle  : s.task = none → s.sq.phase = .idle
  phase : s.sq.phase = .fbAlign ∨ s.sq.phase = .fbBit ∨ s.sq.phase = .fbSq →
            s.maWritten = true ∨ ∃ t, s.issuing (.loada t (s.build.N - 1))
  index : s.sq.phase = .apply → s.sq.mi < s.build.N

/-- The sequencer's counters stay in their widths (R27), with what that needs of the line that counts `sq.mi` up. -/
structure State.SeqInv (s : State) : Prop where
  build : admitted s.build = true
  fits  : s.sq.fits s.build = true
  index : s.sq.phase = .apply → s.sq.mi < s.build.N

/-- The micro-operation is MULVEC.T (for counts, R101). -/
def MicroOp.isMulvecT : MicroOp → Bool
  | .mulvecT _ _ => true
  | .mulvecA => false
  | .loada _ _ => false
  | .squarea => false

/-- The micro-operation is LOADA (for counts, R101). -/
def MicroOp.isLoada : MicroOp → Bool
  | .mulvecT _ _ => false
  | .mulvecA => false
  | .loada _ _ => true
  | .squarea => false

/-- The micro-operations that a command issues (R92, R95, R111, R115, R117, R150): those of its jumps, none when it answers
`NotReady`, and none for a command that does not jump. -/
def commandTrace (s : State) : Instr → List MicroOp
  | .init _ subsequence offset => jumpTrace s.build .sub subsequence ++ jumpTrace s.build .step offset
  | .next => []
  | .skip n => if s.ready then jumpTrace s.build .step n else []
  | .skipsub n => if s.ready then jumpTrace s.build .sub n else []
  | .gcgetf => []
  | .gcgetd => []
  | .gcputf _ => []
  | .gcputd _ => []
  | .gcclrf => []
  | .gcclrd => []
  | .save => []
  | .restore => []
  | .mulvecT _ _ => []
  | .mulvecA => []
  | .loada _ _ => []
  | .squarea => []
  | .reserved0 => []
  | .reservedD => []
  | .reservedE => []
  | .reservedF => []

/-- A sequence of instructions, one after the other. -/
def execAll : List Instr → State → Host.Outcome State Fault Refusal
  | [], s => .next s
  | i :: is, s =>
    match exec i s with
    | .next t => execAll is t
    | .fault r => .fault r
    | .refused r => .refused r

/-- The owner holds what it presents next until it is accepted: nothing is presented, or a command is. -/
def holdsCommand : List PortInput → Bool
  | [] => true
  | .command _ _ :: _ => true
  | _ => false

end Sys2Proof.Machine
end

