-- ==== Sys2Proof/Certificates/Slice0/Obligations.lean ====
section
/-! DEFINITION. The statements for the provers, from the numbered rules of spec/. Each docstring names the rule. -/

open Sys2Proof Sys2Proof.Machine

/-! ### Steps and encodings -/

/-- R8, R60: what `step` runs, and in which state. A command presented to a block that is not busy runs as `exec` of the decoded
word, with the response of the command before gone, the command off the pins, and the image sampled for RESTORE; a
micro-operation word on the multiplier's port runs as `exec` of the decoded word. The model's choices, and no rule's words: `step`
itself runs a word that stands on the multiplier's port (notes/assumptions/1.md and 18.md), the response of the step before is
gone (22.md), the presented image is put into `IMG` (21.md), and an idle entry of the inputs is used up (26.md). -/
def Obligations.StepRunsDecodedInstruction : Prop :=
  ∀ s : State, admitted s.build = true →
    (∀ w img rest, s.uop = none → s.task = none → s.inputs = .command w img :: rest →
      step s = exec (decodeCommand w)
        { s with rsp := none, inputs := rest,
                 img := if decodeCommand w = .restore then loadImg s.img img else s.img }) ∧
    (∀ w i, s.uop = some w → (∀ rest, s.inputs ≠ .reset :: rest) → decodeMicroOp s.build.N w = .ok i →
      step s = exec i
        { s with rsp := none, uop := none,
                 inputs := match s.inputs with | .idle :: rest => rest | l => l })

/-- R72: the worked encodings, in both directions. -/
def Obligations.WorkedEncodings : Prop :=
  ∀ p ∈ ([ (.init 0 0 0, .command 0x1000000000000000000000000000000000000000000000000),
           (.init 0x0123456789ABCDEF 5 1000, .command 0x10123456789ABCDEF000000000000000500000000000003E8),
           (.next, .command 0x2000000000000000000000000000000000000000000000000),
           (.skip 4096, .command 0x3000000000000000000000000000000000000000000001000),
           (.skipsub 0xFFFFFFFFFFFFFFFF, .command 0x400000000000000000000000000000000FFFFFFFFFFFFFFFF),
           (.gcputf 0x3F800000, .command 0x700000000000000000000000000000000000000003F800000),
           (.save, .command 0xB000000000000000000000000000000000000000000000000),
           (.mulvecT .sub 3, .microOp 0x23),
           (.loada .step 31, .microOp 0x9F),
           (.squarea, .microOp 0xC0) ] : List (Instr × CodeWord)),
    encode Config.default p.1 = p.2 ∧ decode Config.default p.2 = .ok p.1

/-- R62, R65, R71: all sixteen opcodes, with every value of every operand field. Fields a format does not use are
ignored. -/
def Obligations.OpcodeMap : Prop :=
  ∀ a b c : Operand,
    decodeCommand (commandWord 0x0 a b c) = .reserved0 ∧
    decodeCommand (commandWord 0x1 a b c) = .init a b c ∧
    decodeCommand (commandWord 0x2 a b c) = .next ∧
    decodeCommand (commandWord 0x3 a b c) = .skip c ∧
    decodeCommand (commandWord 0x4 a b c) = .skipsub c ∧
    decodeCommand (commandWord 0x5 a b c) = .gcgetf ∧
    decodeCommand (commandWord 0x6 a b c) = .gcgetd ∧
    decodeCommand (commandWord 0x7 a b c) = .gcputf (c.extractLsb' 0 32) ∧
    decodeCommand (commandWord 0x8 a b c) = .gcputd c ∧
    decodeCommand (commandWord 0x9 a b c) = .gcclrf ∧
    decodeCommand (commandWord 0xA a b c) = .gcclrd ∧
    decodeCommand (commandWord 0xB a b c) = .save ∧
    decodeCommand (commandWord 0xC a b c) = .restore ∧
    decodeCommand (commandWord 0xD a b c) = .reservedD ∧
    decodeCommand (commandWord 0xE a b c) = .reservedE ∧
    decodeCommand (commandWord 0xF a b c) = .reservedF

/-- R66, R67: every micro-operation word of `MIW + 3` bits; an index at or above `N` is refused (R67). That a wider word is refused
is the model's choice (notes/assumptions/12.md). -/
def Obligations.MicroOperationMap : Prop :=
  ∀ (n : Nat) (t : TableSel) (mi : Nat), mi < 2 ^ miw n →
    decodeMicroOp n (0 * 2 ^ (miw n + 1) + tselBit t * 2 ^ miw n + mi) =
      (if mi < n then .ok (.mulvecT t mi) else .error .tableIndexOutOfRange) ∧
    decodeMicroOp n (1 * 2 ^ (miw n + 1) + tselBit t * 2 ^ miw n + mi) = .ok .mulvecA ∧
    decodeMicroOp n (2 * 2 ^ (miw n + 1) + tselBit t * 2 ^ miw n + mi) =
      (if mi < n then .ok (.loada t mi) else .error .tableIndexOutOfRange) ∧
    decodeMicroOp n (3 * 2 ^ (miw n + 1) + tselBit t * 2 ^ miw n + mi) = .ok .squarea ∧
    ∀ w, 2 ^ (miw n + 3) ≤ w → decodeMicroOp n w = .error .microOpTooWide

/-- R61, R62, R66, R67: no bit of an operand is lost between the encoder and the decoder, in any build. -/
def Obligations.DecodeInvertsEncode : Prop :=
  ∀ (c : Config) (i : Instr), i.wf c = true → decode c (encode c i) = .ok i

/-! ### Generator core -/

/-- R110: NEXT, its new registers, its output and its frame; and NotReady. The last clause is `xv <- A(xv)`. -/
def Obligations.NextAdvances : Prop :=
  ∀ s : State,
    let t : Word := s.x.x0 ^^^ (s.x.x0 >>> 2)
    let y : Word := (s.x.x4 ^^^ (s.x.x4 <<< 4)) ^^^ (t ^^^ (t <<< 1))
    let d : Word := s.d + 362437
    let nx : ShiftReg := ⟨s.x.x1, s.x.x2, s.x.x3, s.x.x4, y⟩
    (s.ready = true → exec .next s =
      .next { s with x := nx, d := d, rsp := some ⟨.ok, false, (d + y).setWidth 64, 0⟩, task := none }) ∧
    (s.ready = false → exec .next s =
      .next { s with rsp := some ⟨.notReady, false, 0, 0⟩, task := none }) ∧
    nx.toVec = stepA s.x.toVec

/-- R111: INIT in any state and any build, its five steps, by the contract of the two jumps, with its frame. Which half of the seed
makes `s0` is R112's own choice, from general knowledge (its D8; notes/assumptions/5.md). That the sequencer registers are
unchanged is the model's choice for the command level (notes/assumptions/15.md). -/
def Obligations.InitConstructs : Prop :=
  ∀ (s : State) (seed subsequence offset : Operand), s.build.ok = true →
    let s0 : Word := seed.extractLsb' 0 32 ^^^ 0xAAD26B49
    let s1 : Word := seed.extractLsb' 32 32 ^^^ 0xF7DCEFDD
    let m := seedMix s.build.seedMix
      (⟨123456789, 362436069, 521288629, 88675123, 5783321⟩, 6615241) (1099087573 * s0) (2591861531 * s1)
    ∃ acc ma mb mw, exec (.init seed subsequence offset) s =
      .next { s with
        x := ShiftReg.ofVec (stepA^[offset.toNat] (stepA^[subsequence.toNat * 2 ^ 67] m.1.toVec))
        d := m.2 + offset.extractLsb' 0 32 * 362437
        gcF := none
        gcD := none
        ready := true
        rsp := some ⟨.ok, false, 0, 0⟩
        task := none
        acc := acc
        ma := ma
        mb := mb
        maWritten := mw }

/-- R111 ("Reads no prior state: the result is a function of the three operands alone"): two instances of one build, in any two
states. -/
def Obligations.InitReadsNoPriorState : Prop :=
  ∀ (s s' : State) (seed subsequence offset : Operand), s.build.ok = true → s'.build = s.build →
    ∃ t t', exec (.init seed subsequence offset) s = .next t ∧
      exec (.init seed subsequence offset) s' = .next t' ∧
      t'.x = t.x ∧ t'.d = t.d ∧ t'.gcF = t.gcF ∧ t'.gcD = t.gcD ∧ t'.ready = t.ready ∧ t'.rsp = t.rsp

/-- R115: SKIP for every distance in every build, by the contract of its jump, with its frame; and NotReady. That the sequencer
registers are unchanged is the model's choice for the command level (notes/assumptions/15.md). -/
def Obligations.SkipAdvances : Prop :=
  ∀ (s : State) (n : Operand), s.build.ok = true →
    (s.ready = true → ∃ acc ma mb mw, exec (.skip n) s =
      .next { s with
        x := ShiftReg.ofVec (stepA^[n.toNat] s.x.toVec)
        d := s.d + n.extractLsb' 0 32 * 362437
        rsp := some ⟨.ok, false, 0, 0⟩
        task := none
        acc := acc
        ma := ma
        mb := mb
        maWritten := mw }) ∧
    (s.ready = false → exec (.skip n) s =
      .next { s with rsp := some ⟨.notReady, false, 0, 0⟩, task := none })

/-- R117: SKIPSUB for every distance in every build: `d` is not written; and NotReady. That the sequencer registers are unchanged is
the model's choice for the command level (notes/assumptions/15.md). -/
def Obligations.SkipsubAdvances : Prop :=
  ∀ (s : State) (n : Operand), s.build.ok = true →
    (s.ready = true → ∃ acc ma mb mw, exec (.skipsub n) s =
      .next { s with
        x := ShiftReg.ofVec (stepA^[n.toNat * 2 ^ 67] s.x.toVec)
        rsp := some ⟨.ok, false, 0, 0⟩
        task := none
        acc := acc
        ma := ma
        mb := mb
        maWritten := mw }) ∧
    (s.ready = false → exec (.skipsub n) s =
      .next { s with rsp := some ⟨.notReady, false, 0, 0⟩, task := none })

/-- R116: the 32-bit Weyl update of a skip is the update by the whole 64-bit distance. -/
def Obligations.WeylUpdate : Prop :=
  ∀ (d : Word) (n : Operand),
    (d + lo32 n * 362437).toNat = (d.toNat + n.toNat * 362437) % 2 ^ 32

/-- R120: SKIP `n` and one NEXT against `n + 1` NEXTs, from any ready state of any build: same state, same output, the cache
untouched. -/
def Obligations.SkipEqualsNexts : Prop :=
  ∀ (s : State) (n : Operand), s.build.ok = true → s.ready = true →
    (∃ t u, exec (.skip n) s = .next t ∧ execAll (List.replicate n.toNat .next) s = .next u ∧
      t.x = u.x ∧ t.d = u.d ∧ t.gcF = s.gcF ∧ u.gcF = s.gcF ∧ t.gcD = s.gcD ∧ u.gcD = s.gcD) ∧
    ∃ t u, execAll [.skip n, .next] s = .next t ∧
      execAll (List.replicate (n.toNat + 1) .next) s = .next u ∧
      t.x = u.x ∧ t.d = u.d ∧ t.gcF = u.gcF ∧ t.gcD = u.gcD ∧ t.ready = u.ready ∧ t.rsp = u.rsp

/-- R117 (corner cases): SKIPSUB `n` equals `2^67 * n` NEXTs in its effect on `x` and on `d` alike. -/
def Obligations.SkipsubEqualsNexts : Prop :=
  ∀ (s : State) (n : Operand), s.build.ok = true → s.ready = true →
    ∃ t u, exec (.skipsub n) s = .next t ∧
      execAll (List.replicate (2 ^ 67 * n.toNat) .next) s = .next u ∧ t.x = u.x ∧ t.d = u.d

/-- R121: INIT with jumps is INIT without, then the two skips. -/
def Obligations.InitComposes : Prop :=
  ∀ (s : State) (seed subsequence offset : Operand), s.build.ok = true →
    ∃ t u, exec (.init seed subsequence offset) s = .next t ∧
      execAll [.init seed 0 0, .skipsub subsequence, .skip offset] s = .next u ∧
      t.x = u.x ∧ t.d = u.d ∧ t.gcF = u.gcF ∧ t.gcD = u.gcD ∧ t.ready = u.ready

/-- R112: the seed split, and that it is a bijection between seeds and pairs `(t0, t1)`. Which half makes `s0` is the rule's own
choice (its D8; notes/assumptions/5.md). -/
def Obligations.SeedSplit : Prop :=
  (∀ seed : Operand,
    seedT0 seed = 1099087573 * (seed.extractLsb' 0 32 ^^^ 0xAAD26B49) ∧
    seedT1 seed = 2591861531 * (seed.extractLsb' 32 32 ^^^ 0xF7DCEFDD)) ∧
  ∀ t0 t1 : Word, ∃! seed : Operand, seedT0 seed = t0 ∧ seedT1 seed = t1

/-- R113, R114: the default seed mixing, and that under it no seed at all gives an all-zero `x`. The pattern is the spec's
default, which the spec marks as from general knowledge (notes/assumptions/5.md). -/
def Obligations.DefaultSeedMixNonDegenerate : Prop :=
  (∀ (x : ShiftReg) (d t0 t1 : Word), seedMix Config.default.seedMix (x, d) t0 t1 =
    (⟨x.x0 + t0, x.x1 ^^^ t0, x.x2 + t1, x.x3 ^^^ t1, x.x4 + t0⟩, d + (t1 + t0))) ∧
  NonDegenerate Config.default.seedMix ∧
  ∀ seed : Operand, (seeded Config.default seed).1 ≠ ShiftReg.zero

/-- R13: the one-step operator is linear over GF(2), sends only zero to zero, and so do its powers. -/
def Obligations.OneStepOperatorLinearInvertible : Prop :=
  (∀ u v : Vec, stepA (u ^^^ v) = stepA u ^^^ stepA v) ∧ stepA 0 = 0 ∧ Function.Bijective stepA ∧
  ∀ (k : Nat) (v : Vec), stepA^[k] v = 0 ↔ v = 0

/-! ### The Gaussian cache -/

/-- R130, R131: the cache reads, with NotReady; no state but the response changes. -/
def Obligations.CacheReads : Prop :=
  ∀ s : State,
    (s.ready = true →
      exec .gcgetf s = .next { s with
        rsp := some (match s.gcF with
          | some b => ⟨.ok, true, b.setWidth 64, 0⟩
          | none => ⟨.ok, false, 0, 0⟩)
        task := none } ∧
      exec .gcgetd s = .next { s with
        rsp := some (match s.gcD with
          | some b => ⟨.ok, true, b, 0⟩
          | none => ⟨.ok, false, 0, 0⟩)
        task := none }) ∧
    (s.ready = false →
      exec .gcgetf s = .next { s with rsp := some ⟨.notReady, false, 0, 0⟩, task := none } ∧
      exec .gcgetd s = .next { s with rsp := some ⟨.notReady, false, 0, 0⟩, task := none })

/-- R132, R133: the cache writes, with NotReady; only the slot and the response change. -/
def Obligations.CacheWrites : Prop :=
  ∀ (s : State) (f : Word) (g : Operand),
    (s.ready = true →
      exec (.gcputf f) s =
        .next { s with gcF := some f, rsp := some ⟨.ok, false, 0, 0⟩, task := none } ∧
      exec (.gcputd g) s =
        .next { s with gcD := some g, rsp := some ⟨.ok, false, 0, 0⟩, task := none }) ∧
    (s.ready = false →
      exec (.gcputf f) s = .next { s with rsp := some ⟨.notReady, false, 0, 0⟩, task := none } ∧
      exec (.gcputd g) s = .next { s with rsp := some ⟨.notReady, false, 0, 0⟩, task := none })

/-- R134, R135: the cache clears, with NotReady; only the slot and the response change. -/
def Obligations.CacheClears : Prop :=
  ∀ s : State,
    (s.ready = true →
      exec .gcclrf s = .next { s with gcF := none, rsp := some ⟨.ok, false, 0, 0⟩, task := none } ∧
      exec .gcclrd s = .next { s with gcD := none, rsp := some ⟨.ok, false, 0, 0⟩, task := none }) ∧
    (s.ready = false →
      exec .gcclrf s = .next { s with rsp := some ⟨.notReady, false, 0, 0⟩, task := none } ∧
      exec .gcclrd s = .next { s with rsp := some ⟨.notReady, false, 0, 0⟩, task := none })

/-- R138: no instruction but GCPUT and RESTORE makes an empty slot non-empty, and NEXT, SKIP, SKIPSUB and the four
micro-operations leave both slots as they are. -/
def Obligations.CacheFilledOnlyByPutAndRestore : Prop :=
  ∀ (i : Instr) (s t : State), exec i s = .next t →
    (s.gcF = none → t.gcF ≠ none → i = .restore ∨ ∃ b, i = .gcputf b) ∧
    (s.gcD = none → t.gcD ≠ none → i = .restore ∨ ∃ b, i = .gcputd b) ∧
    (match i with
     | .next | .skip _ | .skipsub _ | .mulvecT _ _ | .mulvecA | .loada _ _ | .squarea =>
        t.gcF = s.gcF ∧ t.gcD = s.gcD
     | _ => True)

/-! ### The persisted state -/

/-- R136, R45, R46, R48: SAVE writes the 44 bytes of the image, each field little-endian at its offset, and presents them;
nothing else changes, and NotReady changes nothing. -/
def Obligations.SaveWritesImage : Prop :=
  ∀ s : State, Memory.wf s.img = true →
    (s.ready = true → ∃ m : Memory,
      exec .save s = .next { s with img := m, rsp := some ⟨.ok, false, 0, imgPort m⟩, task := none } ∧
      (∀ a, a < 44 → m.read a = (imgPort m).extractLsb' (8 * a) 8) ∧
      (∀ a, 44 ≤ a → m.read a = s.img.read a) ∧
      (imgPort m).extractLsb' 0 32 = s.x.x0 ∧ (imgPort m).extractLsb' 32 32 = s.x.x1 ∧
      (imgPort m).extractLsb' 64 32 = s.x.x2 ∧ (imgPort m).extractLsb' 96 32 = s.x.x3 ∧
      (imgPort m).extractLsb' 128 32 = s.x.x4 ∧ (imgPort m).extractLsb' 160 32 = s.d ∧
      (imgPort m).extractLsb' 192 32 = (if s.gcF.isSome then 1 else 0) ∧
      (imgPort m).extractLsb' 224 32 = (if s.gcD.isSome then 1 else 0) ∧
      (imgPort m).extractLsb' 256 32 = s.gcF.getD 0 ∧ (imgPort m).extractLsb' 288 64 = s.gcD.getD 0) ∧
    (s.ready = false → exec .save s = .next { s with rsp := some ⟨.notReady, false, 0, 0⟩, task := none })

/-- R137, R153: RESTORE of the image in `IMG`: refused with BadImage exactly when a flag word exceeds 1 or all five `x` words are
zero, changing nothing; otherwise the state is loaded and the engine is ready, whatever `ready` was. -/
def Obligations.RestoreLoadsImage : Prop :=
  ∀ s : State,
    let p := imgPort s.img
    let nx : ShiftReg := ⟨p.extractLsb' 0 32, p.extractLsb' 32 32, p.extractLsb' 64 32, p.extractLsb' 96 32,
      p.extractLsb' 128 32⟩
    let ff : Word := p.extractLsb' 192 32
    let fd : Word := p.extractLsb' 224 32
    exec .restore s =
      if 1 < ff ∨ 1 < fd ∨ nx = ⟨0, 0, 0, 0, 0⟩ then
        .next { s with rsp := some ⟨.badImage, false, 0, 0⟩, task := none }
      else
        .next { s with
          x := nx
          d := p.extractLsb' 160 32
          gcF := if ff = 1 then some (p.extractLsb' 256 32) else none
          gcD := if fd = 1 then some (p.extractLsb' 288 64) else none
          ready := true
          rsp := some ⟨.ok, false, 0, 0⟩
          task := none }

/-- R45, R60: a RESTORE accepted on the command port reads the image presented with it. That the image is put into `IMG` at
acceptance (notes/assumptions/21.md) and that the response of the step before is gone (22.md) are the model's choices. -/
def Obligations.PresentedImageIsRestored : Prop :=
  ∀ (s : State) (w : BitVec 196) (img : BitVec 352) (rest : List PortInput), admitted s.build = true →
    Memory.wf s.img = true → s.uop = none → s.task = none → s.inputs = .command w img :: rest →
    opField w = 0xC →
    ∃ u : State, step s = exec .restore u ∧ imgPort u.img = img ∧
      u = { s with rsp := none, inputs := rest, img := u.img }

/-- R139: SAVE, then RESTORE of the saved image on any instance. A ready state's `x` is not all zero (R32). -/
def Obligations.SaveRestoreRoundTrip : Prop :=
  ∀ s : State, s.ready = true → s.x ≠ ShiftReg.zero → Memory.wf s.img = true →
    ∃ t r, exec .save s = .next t ∧ t.rsp = some r ∧ r.status = .ok ∧
      ∀ s' : State, Memory.wf s'.img = true →
        ∃ u, exec .restore { s' with img := loadImg s'.img r.img } = .next u ∧
          u.x = s.x ∧ u.d = s.d ∧ u.gcF = s.gcF ∧ u.gcD = s.gcD ∧ u.ready = s.ready

/-- R137 (corner cases): an accepted RESTORE, then SAVE, returns the same image if and only if the ignored value bytes were
zero. -/
def Obligations.RestoreSaveRoundTrip : Prop :=
  ∀ s : State, Memory.wf s.img = true → imageBad s.img = false →
    let p := imgPort s.img
    ∃ t u r, exec .restore s = .next t ∧ exec .save t = .next u ∧ u.rsp = some r ∧ r.status = .ok ∧
      (r.img = p ↔
        (p.extractLsb' 192 32 = 0#32 → p.extractLsb' 256 32 = 0#32) ∧
        (p.extractLsb' 224 32 = 0#32 → p.extractLsb' 288 64 = 0#64))

/-! ### The GF(2) multiplier and the tables -/

/-- R80, R85: lane `c` of a product is the parity of the selected rows' bits. -/
def Obligations.MulVecLanes : Prop :=
  ∀ (m : JumpMatrix) (v : Vec) (c : Nat),
    (mulVec m v).getLsbD c =
      decide ((List.range 160).countP (fun r => v.getLsbD r && (m.row r).getLsbD c) % 2 = 1)

/-- R84: the laws of the two functions. -/
def Obligations.MatrixLaws : Prop :=
  (∀ m : JumpMatrix, mulVec m 0 = 0) ∧
  (∀ (m : JumpMatrix) (r : Nat), r < 160 → mulVec m (unitVec r) = m.row r) ∧
  (∀ (m : JumpMatrix) (u v : Vec), mulVec m (u ^^^ v) = mulVec m u ^^^ mulVec m v) ∧
  (∀ (f : Vec → Vec), (∀ u v, f (u ^^^ v) = f u ^^^ f v) → ∀ v, mulVec (matrixOf f) v = f v) ∧
  (∀ (c : Config) (t : TableSel) (mi : Nat) (v : Vec),
    mulVec (table c t mi) v = stepA^[2 ^ (c.W * mi) * unit t] v) ∧
  (∀ (f g : Vec → Vec), (∀ u v, g (u ^^^ v) = g u ^^^ g v) →
    mulMat (matrixOf f) (matrixOf g) = matrixOf (g ∘ f)) ∧
  (∀ p q : Nat, mulMat (matrixOf (stepA^[p])) (matrixOf (stepA^[q])) = matrixOf (stepA^[p + q])) ∧
  (∀ v : Vec, mulVec (matrixOf id) v = v)

/-- R44: the contents of the two tables. -/
def Obligations.TableContents : Prop :=
  ∀ (c : Config) (mi r : Nat), r < 160 →
    (table c .step mi).length = 160 ∧ (table c .sub mi).length = 160 ∧
    (table c .step mi).row r = stepA^[2 ^ (c.W * mi)] (unitVec r) ∧
    (table c .sub mi).row r = stepA^[2 ^ (c.W * mi) * 2 ^ 67] (unitVec r)

/-- R43, R46, R47: every word of every matrix stands in the ROM at its address, aligned and inside the space. -/
def Obligations.RomAddressMap : Prop :=
  ∀ (c : Config) (t : TableSel) (mi r k : Nat), mi < c.N → r < 160 → k < 5 →
    romAddr c t mi r k = 4 * (((tselBit t * c.N + mi) * 160 + r) * 5 + k) ∧
    romRead c (romAddr c t mi r k) = ((table c t mi).row r).extractLsb' (32 * k) 32 ∧
    romAddr c t mi r k % 4 = 0 ∧ romAddr c t mi r k + 4 ≤ 2 * c.N * 3200 ∧
    (t = .step → romAddr c t mi r k + 4 ≤ 3200 * c.N) ∧ (t = .sub → 3200 * c.N ≤ romAddr c t mi r k)

/-- R81: MULVEC.T takes the product of the shift register with the matrix whose words the ROM holds at the table entry's
addresses, which advances it by `2^(W*mi)` units of the table; only `x` and the accumulator change. That the accumulator keeps the
product (R29 forms it there and calls it dead afterwards) is the model's choice (notes/assumptions/16.md). -/
def Obligations.MulvecTApplies : Prop :=
  ∀ (s : State) (t : TableSel) (mi : Nat), mi < s.build.N →
    ∃ m : JumpMatrix, m.length = 160 ∧
      (∀ r k, r < 160 → k < 5 →
        (m.row r).extractLsb' (32 * k) 32 = romRead s.build (romAddr s.build t mi r k)) ∧
      exec (.mulvecT t mi) s =
        .next { s with x := ShiftReg.ofVec (mulVec m s.x.toVec), acc := mulVec m s.x.toVec } ∧
      mulVec m s.x.toVec = stepA^[2 ^ (s.build.W * mi) * unit t] s.x.toVec

/-- R82: MULVEC.A with `ma` written multiplies `x` by `ma`, which applies a power of `A` where `ma` stores one; only `x` and the
accumulator change. With `ma` unwritten it is refused, as R82 asks of a model. That only a LOADA counts as writing `ma` is the model's
choice (notes/assumptions/11.md), and that the accumulator keeps the product (R29 forms it there and calls it dead afterwards)
is the model's choice too (16.md). That it runs in a build
without scratch matrices is the model's choice (notes/assumptions/31.md). -/
def Obligations.MulvecAApplies : Prop :=
  ∀ s : State,
    (s.maWritten = true → exec .mulvecA s =
      .next { s with x := ShiftReg.ofVec (mulVec s.ma s.x.toVec), acc := mulVec s.ma s.x.toVec }) ∧
    (∀ p : Nat, s.ma = matrixOf (stepA^[p]) → mulVec s.ma s.x.toVec = stepA^[p] s.x.toVec) ∧
    (s.maWritten = false → exec .mulvecA s = .refused .scratchUnwritten)

/-- R94: LOADA puts the words that the ROM holds at the table entry's addresses into `ma`, which is then the matrix of the
entry's power of `A`; only `ma` changes, and beside it the model's own bit that says that `ma` has been written
(notes/assumptions/11.md). That it runs in a build
without scratch matrices is the model's choice (notes/assumptions/31.md). -/
def Obligations.LoadaLoads : Prop :=
  ∀ (s : State) (t : TableSel) (mi : Nat), mi < s.build.N →
    ∃ m : JumpMatrix, exec (.loada t mi) s = .next { s with ma := m, maWritten := true } ∧ m.length = 160 ∧
      (∀ r k, r < 160 → k < 5 →
        (m.row r).extractLsb' (32 * k) 32 = romRead s.build (romAddr s.build t mi r k)) ∧
      m = matrixOf (stepA^[2 ^ (s.build.W * mi) * unit t])

/-- R96: SQUAREA in every state; only the scratch matrices change, and a power of `A` is squared. That the accumulator is unchanged
(notes/assumptions/16.md), and that SQUAREA runs on the reset value before any LOADA, where V10 of 93_implementation_defined.md
advises a model to refuse it (11.md), are the model's choices. That it runs in a build
without scratch matrices is the model's choice (notes/assumptions/31.md). -/
def Obligations.SquareaSquares : Prop :=
  ∀ s : State, ∃ m : JumpMatrix,
    exec .squarea s = .next { s with mb := s.ma, ma := m } ∧ m.length = s.ma.length ∧
    (∀ r, m.row r = mulVec s.ma (s.ma.row r)) ∧
    ∀ p : Nat, s.ma = matrixOf (stepA^[p]) → m = matrixOf (stepA^[2 * p])

/-- R67, V10: a table micro-operation whose index is outside the table is refused. -/
def Obligations.TableIndexRefused : Prop :=
  ∀ (s : State) (t : TableSel) (mi : Nat), s.build.N ≤ mi →
    exec (.mulvecT t mi) s = .refused .tableIndexOutOfRange ∧
    exec (.loada t mi) s = .refused .tableIndexOutOfRange

/-! ### The jump-ahead sequencer -/

/-- R90, R93, R95, R97, R98, R103: the algorithm meets the contract in every build and for every distance, and touches nothing but
the shift register, the accumulator and the scratch matrices. That the sequencer registers are unchanged is the model's choice
for a jump as one transition (notes/assumptions/15.md). -/
def Obligations.JumpMeetsContract : Prop :=
  ∀ (s : State) (t : TableSel) (v : BitVec 64), s.build.ok = true →
    (∃ acc ma mb mw, jump t v s =
      { s with x := ShiftReg.ofVec (stepA^[v.toNat * unit t] s.x.toVec), acc := acc, ma := ma, mb := mb,
               maWritten := mw }) ∧
    (v = 0 → jumpTrace s.build t v = [] ∧ jump t v s = s)

/-- R99: `FALLBACK` is invisible at the command interface, and so are `W` and `N`: two builds that differ only in them give the
same `x` from the same `x`. -/
def Obligations.TableParametersInvisible : Prop :=
  ∀ (s s' : State) (t : TableSel) (v : BitVec 64), s.build.ok = true → s'.build.ok = true → s'.x = s.x →
    (jump t v s').x = (jump t v s).x

/-- R101: the exact counts of micro-operations of a jump. `rem` is the distance beyond the table; its bit length is
`Nat.log2 rem + 1`. -/
def Obligations.MicroOperationCounts : Prop :=
  ∀ (c : Config) (t : TableSel) (v : BitVec 64), c.ok = true →
    let ms := jumpTrace c t v
    let digits := ((List.range c.N).map fun i => v.toNat / 2 ^ (c.W * i) % 2 ^ c.W).sum
    let rem := v.toNat / 2 ^ (c.W * c.N)
    let pop := ((List.range 64).map fun j => rem / 2 ^ j % 2).sum
    (c.fallback = .squaring →
      ms.countP MicroOp.isMulvecT = digits ∧ ms.count .mulvecA = pop ∧
      ms.countP MicroOp.isLoada = (if rem = 0 then 0 else 1) ∧
      ms.count .squarea = (if rem = 0 then 0 else c.W + (Nat.log2 rem + 1) - 1)) ∧
    (c.fallback = .linear →
      ms.countP MicroOp.isMulvecT = digits + rem * 2 ^ c.W ∧ ms.count .mulvecA = 0 ∧
      ms.countP MicroOp.isLoada = 0 ∧ ms.count .squarea = 0)

/-- R100: each line of the sequencer's table, as a step of a busy block whose multiplier is idle. The model's choices: `step` runs
the lines of a busy block (notes/assumptions/1.md), a line that issues leaves its word on the port for a step of the
multiplier (18.md), `DONE` and the engine's completion are one step (20.md), and the response of the step before is gone
(22.md). -/
def Obligations.SequencerLines : Prop :=
  ∀ (s : State) (k : Task), admitted s.build = true → s.uop = none → s.task = some k → holdsCommand s.inputs = true →
    let N := s.build.N
    let W := s.build.W
    let q := s.sq
    let go (uop : Option Nat) (q : Sequencer) : Host.Outcome State Fault Refusal :=
      .next { s with rsp := none, uop := uop, sq := q }
    (q.phase = .idle → step s = go none { q with tsel := k.sel, v := k.distance, mi := 0, phase := .digit }) ∧
    (q.phase = .digit → q.v = 0 → step s = go none { q with phase := .done }) ∧
    (q.phase = .digit → q.v ≠ 0 → q.mi = N → s.build.fallback = .squaring →
      step s = go none { q with phase := .fbLoad }) ∧
    (q.phase = .digit → q.v ≠ 0 → q.mi = N → s.build.fallback = .linear →
      step s = go none { q with lin := q.v <<< W, v := 0, phase := .fbLin }) ∧
    (q.phase = .digit → q.v ≠ 0 → q.mi < N →
      step s = go none { q with rep := BitVec.ofNat 64 (q.v.toNat % 2 ^ W), phase := .apply }) ∧
    (q.phase = .apply → q.rep ≠ 0 →
      step s = go (some (microOpWord N 0 (tselBit q.tsel) q.mi)) { q with rep := q.rep - 1 }) ∧
    (q.phase = .apply → q.rep = 0 →
      step s = go none { q with mi := q.mi + 1, v := q.v >>> W, phase := .digit }) ∧
    (q.phase = .fbLoad →
      step s = go (some (microOpWord N 2 (tselBit q.tsel) (N - 1))) { q with k := BitVec.ofNat 7 W, phase := .fbAlign }) ∧
    (q.phase = .fbAlign → q.k ≠ 0 → step s = go (some (microOpWord N 3 0 0)) { q with k := q.k - 1 }) ∧
    (q.phase = .fbAlign → q.k = 0 → step s = go none { q with phase := .fbBit }) ∧
    (q.phase = .fbBit → q.v.getLsbD 0 = true → step s = go (some (microOpWord N 1 0 0))
      { q with v := q.v >>> 1, phase := if q.v >>> 1 ≠ 0 then .fbSq else .done }) ∧
    (q.phase = .fbBit → q.v.getLsbD 0 = false → step s = go none { q with v := q.v >>> 1, phase := .fbSq }) ∧
    (q.phase = .fbSq → step s = go (some (microOpWord N 3 0 0)) { q with phase := .fbBit }) ∧
    (q.phase = .fbLin → q.lin ≠ 0 →
      step s = go (some (microOpWord N 0 (tselBit q.tsel) (N - 1))) { q with lin := q.lin - 1 }) ∧
    (q.phase = .fbLin → q.lin = 0 → step s = go none { q with phase := .done }) ∧
    (q.phase = .done →
      step s = .next (State.complete { s with rsp := none, sq := { q with phase := .idle } } k))

/-- R100: the trace that the sequencer issues for a jump, as words on the multiplier's port, is the sequence of R95 with R97 or R98,
and the registers it leaves at `DONE` are those of the jump as one transition. That a word stands on the port between two steps
(notes/assumptions/18.md) and that the response of the step before is gone (22.md) are the model's choices. -/
def Obligations.SequencerIssuesAlgorithm : Prop :=
  ∀ (s : State) (k : Task), admitted s.build = true → s.uop = none → s.task = some k → s.sq.phase = .idle →
    holdsCommand s.inputs = true →
    ∃ (n : Nat) (q : Sequencer),
      microRun n s = .next { jump k.sel k.distance s with rsp := none, sq := q } ∧ q.phase = .done ∧
      (microTrace n s).map .microOp =
        (jumpTrace s.build k.sel k.distance).map fun m => encode s.build m.toInstr

/-- R8, R92, R100, R102: the micro-operation level refines the command level. From a block that is not busy with a command
presented, finitely many of its steps end in exactly the state that one command-level step gives, response included, but for
the dead sequencer registers; and the words that it puts on the multiplier's port are the command's jumps, the subsequence jump of
an INIT before its offset jump. How the steps of the three agents interleave is the model's choice
(notes/assumptions/18.md). -/
def Obligations.MicroLevelRefinesCommandLevel : Prop :=
  ∀ (s : State) (w : BitVec 196) (img : BitVec 352) (rest : List PortInput), admitted s.build = true →
    s.uop = none → s.task = none → s.sq.phase = .idle → s.inputs = .command w img :: rest →
    holdsCommand rest = true →
    ∃ (t : State) (n : Nat) (q : Sequencer), step s = .next t ∧ t.rsp.isSome = true ∧ 0 < n ∧
      microRun n s = .next { t with sq := q } ∧ q.phase = .idle ∧
      (microTrace n s).map .microOp =
        (commandTrace s (decodeCommand w)).map fun m => encode s.build m.toInstr

/-- R67, R82, R95, R47: under the sequencer's discipline MULVEC.A does not stand on the multiplier's port with `ma` unwritten, no
step of either level is refused, and each keeps the discipline: no index outside the table is issued and no unwritten `ma` is
read. -/
def Obligations.SequencerNeverRefused : Prop :=
  ∀ s : State, s.IssueInv → s.readsWrittenMa ∧
    (∃ t, microStep s = .next t ∧ t.IssueInv) ∧ ∃ t, step s = .next t ∧ t.IssueInv

/-! ### Faults, responses and whole-machine rules -/

/-- R65, R151: the reserved opcodes answer IllegalCommand and change nothing, whatever `ready` is. -/
def Obligations.ReservedOpcodesIllegal : Prop :=
  ∀ (s : State) (i : Instr), i = .reserved0 ∨ i = .reservedD ∨ i = .reservedE ∨ i = .reservedF →
    exec i s = .next { s with rsp := some ⟨.illegalCommand, false, 0, 0⟩, task := none }

/-- R152: every command but INIT and RESTORE answers NotReady while `ready = 0`, and no command answers it otherwise. -/
def Obligations.NotReadyRaised : Prop :=
  (∀ (s : State) (i : Instr), s.ready = false →
    (match i with
     | .next | .skip _ | .skipsub _ | .gcgetf | .gcgetd | .gcputf _ | .gcputd _ | .gcclrf | .gcclrd | .save => True
     | _ => False) →
    exec i s = .next { s with rsp := some ⟨.notReady, false, 0, 0⟩, task := none }) ∧
  ∀ (s t : State) (i : Instr) (r : Response), i.isCommand = true → exec i s = .next t → t.rsp = some r →
    r.status = .notReady → s.ready = false ∧ i ≠ .restore ∧ ∀ a b c, i ≠ .init a b c

/-- R150: a command that answers with a fault changes no state, answers with zeros, and leaves the port free; which fault is
answered, and when; the codes. -/
def Obligations.FaultsChangeNothing : Prop :=
  (∀ (i : Instr) (s t : State) (r : Response), i.isCommand = true → exec i s = .next t → t.rsp = some r →
    (r.status ≠ .ok → t = { s with rsp := some ⟨r.status, false, 0, 0⟩, task := none } ∧ t.cmdReady = true) ∧
    (r.status = .illegalCommand ↔ i = .reserved0 ∨ i = .reservedD ∨ i = .reservedE ∨ i = .reservedF) ∧
    (r.status = .notReady ↔ s.ready = false ∧
      match i with
      | .next | .skip _ | .skipsub _ | .gcgetf | .gcgetd | .gcputf _ | .gcputd _ | .gcclrf | .gcclrd | .save => True
      | _ => False) ∧
    (r.status = .badImage ↔ i = .restore ∧
      (1 < imgRead s.img 24 4 ∨ 1 < imgRead s.img 28 4 ∨ ∀ k < 5, imgRead s.img (4 * k) 4 = 0))) ∧
  Status.ok.code = 0 ∧ Status.illegalCommand.code = 1 ∧ Status.notReady.code = 2 ∧ Status.badImage.code = 3

/-- R60, R64, R102: every command answers, once, in every state of every build, and the port is free again. -/
def Obligations.EveryCommandAnswers : Prop :=
  ∀ (i : Instr) (s : State), i.isCommand = true →
    ∃ t r, exec i s = .next t ∧ t.rsp = some r ∧ t.busy = false

/-- R64: the response fields of every command. -/
def Obligations.ResponseTable : Prop :=
  ∀ (i : Instr) (s t : State) (r : Response), i.isCommand = true → exec i s = .next t → t.rsp = some r →
    if r.status = .ok then
      match i with
      | .next => r = ⟨.ok, false, (t.d + t.x.x4).setWidth 64, 0⟩
      | .gcgetf => r = ⟨.ok, s.gcF.isSome, (s.gcF.getD 0).setWidth 64, 0⟩
      | .gcgetd => r = ⟨.ok, s.gcD.isSome, s.gcD.getD 0, 0⟩
      | .save => r = ⟨.ok, false, 0, imgPort t.img⟩
      | _ => r = ⟨.ok, false, 0, 0⟩
    else r.flag = false ∧ r.data = 0 ∧ r.img = 0

/-- R35: the write columns of the access matrix, for every command. -/
def Obligations.AccessMatrixWrites : Prop :=
  ∀ (i : Instr) (s t : State), i.isCommand = true → exec i s = .next t →
    (match i with | .init _ _ _ | .next | .skip _ | .skipsub _ | .restore => True | _ => t.x = s.x) ∧
    (match i with | .init _ _ _ | .next | .skip _ | .restore => True | _ => t.d = s.d) ∧
    (match i with | .init _ _ _ | .gcputf _ | .gcclrf | .restore => True | _ => t.gcF = s.gcF) ∧
    (match i with | .init _ _ _ | .gcputd _ | .gcclrd | .restore => True | _ => t.gcD = s.gcD) ∧
    (match i with | .init _ _ _ | .restore => True | _ => t.ready = s.ready) ∧
    (match i with
     | .init _ _ _ | .skip _ | .skipsub _ => True
     | _ => t.sq = s.sq ∧ t.ma = s.ma ∧ t.mb = s.mb ∧ t.acc = s.acc)

/-- R23, R34, R124: only INIT and RESTORE make the engine ready, and no instruction un-readies it. -/
def Obligations.ReadyOnlyByInitOrRestore : Prop :=
  ∀ (i : Instr) (s t : State), exec i s = .next t →
    (s.ready = true → t.ready = true) ∧
    (s.ready = false → t.ready = true → i = .restore ∨ ∃ a b c, i = .init a b c)

/-- R33: no instruction makes `d` depend on `x` or `x` depend on `d`. -/
def Obligations.ShiftRegisterAndWeylIndependent : Prop :=
  ∀ (i : Instr) (s t t' : State) (x : ShiftReg) (d : Word),
    (exec i s = .next t → exec i { s with x := x } = .next t' → t'.d = t.d) ∧
    (exec i s = .next t → exec i { s with d := d } = .next t' → t'.x = t.x)

/-- R31: no step of either level changes the build. -/
def Obligations.ConfigurationFixed : Prop :=
  ∀ s t : State, step s = .next t ∨ microStep s = .next t → t.build = s.build

/-- R24, R60: a command presented while the block is busy is not accepted; `cmd_ready` is `not busy`. At both levels: the
micro-operation level is the one where a run has `busy = 1`, and that the command level steps from a busy state at all is the
model's choice (notes/assumptions/1.md). That the command stays presented is the model's choice too (2.md): R60 has the owner hold
it or withdraw it. -/
def Obligations.BusyHoldsCommand : Prop :=
  ∀ (s t : State) (w : BitVec 196) (img : BitVec 352) (rest : List PortInput),
    s.busy = true → s.inputs = .command w img :: rest →
    (step s = .next t ∨ microStep s = .next t) → s.cmdReady = false ∧ t.inputs = s.inputs

/-- R36, R170: reset, from any state and whatever is in progress, at both levels; and the state after reset. That nothing stands on
the multiplier's port (notes/assumptions/18.md) and that the build and the later inputs are kept (23.md) are the model's choices. -/
def Obligations.ResetLeavesNotReady : Prop :=
  (∀ (s : State) (rest : List PortInput), admitted s.build = true → s.inputs = .reset :: rest →
    ∃ t, step s = .next t ∧ microStep s = .next t ∧ t.ready = false ∧ t.busy = false ∧ t.sq.phase = .idle ∧
      t.rsp = none ∧ t.cmdReady = true ∧ t.uop = none ∧ t.build = s.build ∧ t.inputs = rest) ∧
  State.reset.ready = false ∧ State.reset.busy = false ∧ State.reset.sq.phase = .idle ∧
  State.reset.rsp = none ∧ State.reset.cmdReady = true

/-- R32: "the invariant `ready = 1 -> xv != 0`", kept by every step of either level, from every state of an admitted build that meets
it (with what it needs of the running matrix). The sequencer's discipline is kept beside it. -/
def Obligations.NonZeroInvariantKept : Prop :=
  ∀ s t : State, s.Inv → step s = .next t ∨ microStep s = .next t → t.Inv ∧ (s.IssueInv → t.IssueInv)

/-- The invariants hold at reset. `State.reset` is the model's choice in what they need of it: the default build
(notes/assumptions/4.md), the zeros of `sq.mi`, `sq.rep` and `sq.k` (8.md), the empty `IMG` list (9.md), nothing on the multiplier's port
(18.md) and `ma` unwritten (11.md). R36 gives `ready`, `busy` and the phase. -/
def Obligations.InvariantsHoldAtReset : Prop :=
  State.reset.Inv ∧ State.reset.IssueInv ∧ State.reset.SeqInv ∧ Memory.wf State.reset.img = true

/-- The `IMG` space keeps its canonical form in every step of either level. -/
def Obligations.ImageSpaceCanonical : Prop :=
  ∀ s t : State, Memory.wf s.img = true → step s = .next t ∨ microStep s = .next t → Memory.wf t.img = true

/-- R51, R159: two instances step in either order with the same result. -/
def Obligations.InstancesIndependent : Prop :=
  ∀ (p q : Nat) (ss a b : List State), p ≠ q → stepInstance p ss = .next a → stepInstance q ss = .next b →
    ∃ c, stepInstance q a = .next c ∧ stepInstance p b = .next c ∧
      a[q]? = ss[q]? ∧ b[p]? = ss[p]?

/-- R113, R114 (and U4, V11 of 93_implementation_defined.md): which parameters a step admits at either level. `W` and `N` are in the
ranges of R6, and the seed mixing gives no seed an all-zero `x`, constraint (c); every other build is refused, and no build
that meets them is. -/
def Obligations.AdmittedBuildsExactly : Prop :=
  ∀ s : State,
    let good : Prop := 1 ≤ s.build.W ∧ s.build.W ≤ 64 ∧ 1 ≤ s.build.N ∧
      ∀ t0 t1 : Word, (seedMix s.build.seedMix startValues t0 t1).1 ≠ ShiftReg.zero
    (step s = .refused .notABuild ↔ ¬ good) ∧ (microStep s = .refused .notABuild ↔ ¬ good)

/-- R27, R119: every step of either level keeps the sequencer's counters in their widths: `sq.mi` in `0..N` and so in
`ceil(log2(N+1))` bits, `sq.rep` in `W` bits, `sq.k` in `0..W`, below the 7 bits of its register. After a step that takes a reset the
bounds rest on the zeros that the model chose for the three counters (notes/assumptions/8.md and 23.md), which R36 leaves
unspecified. -/
def Obligations.SequencerRegistersFit : Prop :=
  ∀ s t : State, s.SeqInv → step s = .next t ∨ microStep s = .next t →
    t.SeqInv ∧ t.sq.mi ≤ t.build.N ∧ t.sq.mi < 2 ^ miRegWidth t.build.N ∧ t.sq.rep.toNat < 2 ^ t.build.W ∧
      t.sq.k.toNat ≤ t.build.W
end

