-- ==== Sys2Proof/Laws/State.lean ====
section
/-! SUPPORT. One lemma per field per update of the state, so that no proof unfolds a record update. -/

namespace Sys2Proof.Machine

@[simp] theorem State.setVec_build (s : State) (v : Vec) : (s.setVec v).build = s.build := rfl
@[simp] theorem State.setVec_x (s : State) (v : Vec) : (s.setVec v).x = ShiftReg.ofVec v := rfl
@[simp] theorem State.setVec_d (s : State) (v : Vec) : (s.setVec v).d = s.d := rfl
@[simp] theorem State.setVec_gcF (s : State) (v : Vec) : (s.setVec v).gcF = s.gcF := rfl
@[simp] theorem State.setVec_gcD (s : State) (v : Vec) : (s.setVec v).gcD = s.gcD := rfl
@[simp] theorem State.setVec_ready (s : State) (v : Vec) : (s.setVec v).ready = s.ready := rfl
@[simp] theorem State.setVec_task (s : State) (v : Vec) : (s.setVec v).task = s.task := rfl
@[simp] theorem State.setVec_sq (s : State) (v : Vec) : (s.setVec v).sq = s.sq := rfl
@[simp] theorem State.setVec_ma (s : State) (v : Vec) : (s.setVec v).ma = s.ma := rfl
@[simp] theorem State.setVec_mb (s : State) (v : Vec) : (s.setVec v).mb = s.mb := rfl
@[simp] theorem State.setVec_maWritten (s : State) (v : Vec) : (s.setVec v).maWritten = s.maWritten := rfl
@[simp] theorem State.setVec_acc (s : State) (v : Vec) : (s.setVec v).acc = v := rfl
@[simp] theorem State.setVec_uop (s : State) (v : Vec) : (s.setVec v).uop = s.uop := rfl
@[simp] theorem State.setVec_img (s : State) (v : Vec) : (s.setVec v).img = s.img := rfl
@[simp] theorem State.setVec_rsp (s : State) (v : Vec) : (s.setVec v).rsp = s.rsp := rfl
@[simp] theorem State.setVec_inputs (s : State) (v : Vec) : (s.setVec v).inputs = s.inputs := rfl

@[simp] theorem State.loadMa_build (s : State) (m : JumpMatrix) : (s.loadMa m).build = s.build := rfl
@[simp] theorem State.loadMa_x (s : State) (m : JumpMatrix) : (s.loadMa m).x = s.x := rfl
@[simp] theorem State.loadMa_d (s : State) (m : JumpMatrix) : (s.loadMa m).d = s.d := rfl
@[simp] theorem State.loadMa_gcF (s : State) (m : JumpMatrix) : (s.loadMa m).gcF = s.gcF := rfl
@[simp] theorem State.loadMa_gcD (s : State) (m : JumpMatrix) : (s.loadMa m).gcD = s.gcD := rfl
@[simp] theorem State.loadMa_ready (s : State) (m : JumpMatrix) : (s.loadMa m).ready = s.ready := rfl
@[simp] theorem State.loadMa_task (s : State) (m : JumpMatrix) : (s.loadMa m).task = s.task := rfl
@[simp] theorem State.loadMa_sq (s : State) (m : JumpMatrix) : (s.loadMa m).sq = s.sq := rfl
@[simp] theorem State.loadMa_ma (s : State) (m : JumpMatrix) : (s.loadMa m).ma = m := rfl
@[simp] theorem State.loadMa_mb (s : State) (m : JumpMatrix) : (s.loadMa m).mb = s.mb := rfl
@[simp] theorem State.loadMa_maWritten (s : State) (m : JumpMatrix) : (s.loadMa m).maWritten = true := rfl
@[simp] theorem State.loadMa_acc (s : State) (m : JumpMatrix) : (s.loadMa m).acc = s.acc := rfl
@[simp] theorem State.loadMa_uop (s : State) (m : JumpMatrix) : (s.loadMa m).uop = s.uop := rfl
@[simp] theorem State.loadMa_img (s : State) (m : JumpMatrix) : (s.loadMa m).img = s.img := rfl
@[simp] theorem State.loadMa_rsp (s : State) (m : JumpMatrix) : (s.loadMa m).rsp = s.rsp := rfl
@[simp] theorem State.loadMa_inputs (s : State) (m : JumpMatrix) : (s.loadMa m).inputs = s.inputs := rfl

@[simp] theorem State.squareMa_build (s : State) : s.squareMa.build = s.build := rfl
@[simp] theorem State.squareMa_x (s : State) : s.squareMa.x = s.x := rfl
@[simp] theorem State.squareMa_d (s : State) : s.squareMa.d = s.d := rfl
@[simp] theorem State.squareMa_gcF (s : State) : s.squareMa.gcF = s.gcF := rfl
@[simp] theorem State.squareMa_gcD (s : State) : s.squareMa.gcD = s.gcD := rfl
@[simp] theorem State.squareMa_ready (s : State) : s.squareMa.ready = s.ready := rfl
@[simp] theorem State.squareMa_task (s : State) : s.squareMa.task = s.task := rfl
@[simp] theorem State.squareMa_sq (s : State) : s.squareMa.sq = s.sq := rfl
@[simp] theorem State.squareMa_ma (s : State) : s.squareMa.ma = squareMat s.ma := rfl
@[simp] theorem State.squareMa_mb (s : State) : s.squareMa.mb = s.ma := rfl
@[simp] theorem State.squareMa_maWritten (s : State) : s.squareMa.maWritten = s.maWritten := rfl
@[simp] theorem State.squareMa_acc (s : State) : s.squareMa.acc = s.acc := rfl
@[simp] theorem State.squareMa_uop (s : State) : s.squareMa.uop = s.uop := rfl
@[simp] theorem State.squareMa_img (s : State) : s.squareMa.img = s.img := rfl
@[simp] theorem State.squareMa_rsp (s : State) : s.squareMa.rsp = s.rsp := rfl
@[simp] theorem State.squareMa_inputs (s : State) : s.squareMa.inputs = s.inputs := rfl

@[simp] theorem State.answer_build (s : State) (r : Response) : (s.answer r).build = s.build := rfl
@[simp] theorem State.answer_x (s : State) (r : Response) : (s.answer r).x = s.x := rfl
@[simp] theorem State.answer_d (s : State) (r : Response) : (s.answer r).d = s.d := rfl
@[simp] theorem State.answer_gcF (s : State) (r : Response) : (s.answer r).gcF = s.gcF := rfl
@[simp] theorem State.answer_gcD (s : State) (r : Response) : (s.answer r).gcD = s.gcD := rfl
@[simp] theorem State.answer_ready (s : State) (r : Response) : (s.answer r).ready = s.ready := rfl
@[simp] theorem State.answer_task (s : State) (r : Response) : (s.answer r).task = none := rfl
@[simp] theorem State.answer_sq (s : State) (r : Response) : (s.answer r).sq = s.sq := rfl
@[simp] theorem State.answer_ma (s : State) (r : Response) : (s.answer r).ma = s.ma := rfl
@[simp] theorem State.answer_mb (s : State) (r : Response) : (s.answer r).mb = s.mb := rfl
@[simp] theorem State.answer_maWritten (s : State) (r : Response) : (s.answer r).maWritten = s.maWritten := rfl
@[simp] theorem State.answer_acc (s : State) (r : Response) : (s.answer r).acc = s.acc := rfl
@[simp] theorem State.answer_uop (s : State) (r : Response) : (s.answer r).uop = s.uop := rfl
@[simp] theorem State.answer_img (s : State) (r : Response) : (s.answer r).img = s.img := rfl
@[simp] theorem State.answer_rsp (s : State) (r : Response) : (s.answer r).rsp = some r := rfl
@[simp] theorem State.answer_inputs (s : State) (r : Response) : (s.answer r).inputs = s.inputs := rfl

@[simp] theorem State.respond_build (s : State) (st : Status) (f : Bool) (v : BitVec 64) : (s.respond st f v).build = s.build := rfl
@[simp] theorem State.respond_x (s : State) (st : Status) (f : Bool) (v : BitVec 64) : (s.respond st f v).x = s.x := rfl
@[simp] theorem State.respond_d (s : State) (st : Status) (f : Bool) (v : BitVec 64) : (s.respond st f v).d = s.d := rfl
@[simp] theorem State.respond_gcF (s : State) (st : Status) (f : Bool) (v : BitVec 64) : (s.respond st f v).gcF = s.gcF := rfl
@[simp] theorem State.respond_gcD (s : State) (st : Status) (f : Bool) (v : BitVec 64) : (s.respond st f v).gcD = s.gcD := rfl
@[simp] theorem State.respond_ready (s : State) (st : Status) (f : Bool) (v : BitVec 64) : (s.respond st f v).ready = s.ready := rfl
@[simp] theorem State.respond_task (s : State) (st : Status) (f : Bool) (v : BitVec 64) : (s.respond st f v).task = none := rfl
@[simp] theorem State.respond_sq (s : State) (st : Status) (f : Bool) (v : BitVec 64) : (s.respond st f v).sq = s.sq := rfl
@[simp] theorem State.respond_ma (s : State) (st : Status) (f : Bool) (v : BitVec 64) : (s.respond st f v).ma = s.ma := rfl
@[simp] theorem State.respond_mb (s : State) (st : Status) (f : Bool) (v : BitVec 64) : (s.respond st f v).mb = s.mb := rfl
@[simp] theorem State.respond_maWritten (s : State) (st : Status) (f : Bool) (v : BitVec 64) : (s.respond st f v).maWritten = s.maWritten := rfl
@[simp] theorem State.respond_acc (s : State) (st : Status) (f : Bool) (v : BitVec 64) : (s.respond st f v).acc = s.acc := rfl
@[simp] theorem State.respond_uop (s : State) (st : Status) (f : Bool) (v : BitVec 64) : (s.respond st f v).uop = s.uop := rfl
@[simp] theorem State.respond_img (s : State) (st : Status) (f : Bool) (v : BitVec 64) : (s.respond st f v).img = s.img := rfl
@[simp] theorem State.respond_rsp (s : State) (st : Status) (f : Bool) (v : BitVec 64) : (s.respond st f v).rsp = some ⟨st, f, v, 0#352⟩ := rfl
@[simp] theorem State.respond_inputs (s : State) (st : Status) (f : Bool) (v : BitVec 64) : (s.respond st f v).inputs = s.inputs := rfl

@[simp] theorem State.raise_build (s : State) (st : Status) : (s.raise st).build = s.build := rfl
@[simp] theorem State.raise_x (s : State) (st : Status) : (s.raise st).x = s.x := rfl
@[simp] theorem State.raise_d (s : State) (st : Status) : (s.raise st).d = s.d := rfl
@[simp] theorem State.raise_gcF (s : State) (st : Status) : (s.raise st).gcF = s.gcF := rfl
@[simp] theorem State.raise_gcD (s : State) (st : Status) : (s.raise st).gcD = s.gcD := rfl
@[simp] theorem State.raise_ready (s : State) (st : Status) : (s.raise st).ready = s.ready := rfl
@[simp] theorem State.raise_task (s : State) (st : Status) : (s.raise st).task = none := rfl
@[simp] theorem State.raise_sq (s : State) (st : Status) : (s.raise st).sq = s.sq := rfl
@[simp] theorem State.raise_ma (s : State) (st : Status) : (s.raise st).ma = s.ma := rfl
@[simp] theorem State.raise_mb (s : State) (st : Status) : (s.raise st).mb = s.mb := rfl
@[simp] theorem State.raise_maWritten (s : State) (st : Status) : (s.raise st).maWritten = s.maWritten := rfl
@[simp] theorem State.raise_acc (s : State) (st : Status) : (s.raise st).acc = s.acc := rfl
@[simp] theorem State.raise_uop (s : State) (st : Status) : (s.raise st).uop = s.uop := rfl
@[simp] theorem State.raise_img (s : State) (st : Status) : (s.raise st).img = s.img := rfl
@[simp] theorem State.raise_rsp (s : State) (st : Status) : (s.raise st).rsp = some ⟨st, false, 0#64, 0#352⟩ := rfl
@[simp] theorem State.raise_inputs (s : State) (st : Status) : (s.raise st).inputs = s.inputs := rfl

@[simp] theorem State.addWeyl_build (s : State) (n : Operand) : (s.addWeyl n).build = s.build := by cases s; rfl
@[simp] theorem State.addWeyl_x (s : State) (n : Operand) : (s.addWeyl n).x = s.x := by cases s; rfl
@[simp] theorem State.addWeyl_d (s : State) (n : Operand) : (s.addWeyl n).d = s.d + lo32 n * Config.weyl := rfl
@[simp] theorem State.addWeyl_gcF (s : State) (n : Operand) : (s.addWeyl n).gcF = s.gcF := by cases s; rfl
@[simp] theorem State.addWeyl_gcD (s : State) (n : Operand) : (s.addWeyl n).gcD = s.gcD := by cases s; rfl
@[simp] theorem State.addWeyl_ready (s : State) (n : Operand) : (s.addWeyl n).ready = s.ready := by cases s; rfl
@[simp] theorem State.addWeyl_task (s : State) (n : Operand) : (s.addWeyl n).task = s.task := by cases s; rfl
@[simp] theorem State.addWeyl_sq (s : State) (n : Operand) : (s.addWeyl n).sq = s.sq := by cases s; rfl
@[simp] theorem State.addWeyl_ma (s : State) (n : Operand) : (s.addWeyl n).ma = s.ma := by cases s; rfl
@[simp] theorem State.addWeyl_mb (s : State) (n : Operand) : (s.addWeyl n).mb = s.mb := by cases s; rfl
@[simp] theorem State.addWeyl_maWritten (s : State) (n : Operand) : (s.addWeyl n).maWritten = s.maWritten := by cases s; rfl
@[simp] theorem State.addWeyl_acc (s : State) (n : Operand) : (s.addWeyl n).acc = s.acc := by cases s; rfl
@[simp] theorem State.addWeyl_uop (s : State) (n : Operand) : (s.addWeyl n).uop = s.uop := by cases s; rfl
@[simp] theorem State.addWeyl_img (s : State) (n : Operand) : (s.addWeyl n).img = s.img := by cases s; rfl
@[simp] theorem State.addWeyl_rsp (s : State) (n : Operand) : (s.addWeyl n).rsp = s.rsp := by cases s; rfl
@[simp] theorem State.addWeyl_inputs (s : State) (n : Operand) : (s.addWeyl n).inputs = s.inputs := by cases s; rfl

@[simp] theorem State.seedExpand_build (s : State) (n : Operand) : (s.seedExpand n).build = s.build := rfl
@[simp] theorem State.seedExpand_x (s : State) (n : Operand) : (s.seedExpand n).x = (seeded s.build n).1 := rfl
@[simp] theorem State.seedExpand_d (s : State) (n : Operand) : (s.seedExpand n).d = (seeded s.build n).2 := rfl
@[simp] theorem State.seedExpand_gcF (s : State) (n : Operand) : (s.seedExpand n).gcF = s.gcF := rfl
@[simp] theorem State.seedExpand_gcD (s : State) (n : Operand) : (s.seedExpand n).gcD = s.gcD := rfl
@[simp] theorem State.seedExpand_ready (s : State) (n : Operand) : (s.seedExpand n).ready = s.ready := rfl
@[simp] theorem State.seedExpand_task (s : State) (n : Operand) : (s.seedExpand n).task = s.task := rfl
@[simp] theorem State.seedExpand_sq (s : State) (n : Operand) : (s.seedExpand n).sq = s.sq := rfl
@[simp] theorem State.seedExpand_ma (s : State) (n : Operand) : (s.seedExpand n).ma = s.ma := rfl
@[simp] theorem State.seedExpand_mb (s : State) (n : Operand) : (s.seedExpand n).mb = s.mb := rfl
@[simp] theorem State.seedExpand_maWritten (s : State) (n : Operand) : (s.seedExpand n).maWritten = s.maWritten := rfl
@[simp] theorem State.seedExpand_acc (s : State) (n : Operand) : (s.seedExpand n).acc = s.acc := rfl
@[simp] theorem State.seedExpand_uop (s : State) (n : Operand) : (s.seedExpand n).uop = s.uop := rfl
@[simp] theorem State.seedExpand_img (s : State) (n : Operand) : (s.seedExpand n).img = s.img := rfl
@[simp] theorem State.seedExpand_rsp (s : State) (n : Operand) : (s.seedExpand n).rsp = s.rsp := rfl
@[simp] theorem State.seedExpand_inputs (s : State) (n : Operand) : (s.seedExpand n).inputs = s.inputs := rfl

@[simp] theorem State.tick_build (s : State) : s.tick.build = s.build := rfl
@[simp] theorem State.tick_x (s : State) : s.tick.x = s.x := rfl
@[simp] theorem State.tick_d (s : State) : s.tick.d = s.d := rfl
@[simp] theorem State.tick_gcF (s : State) : s.tick.gcF = s.gcF := rfl
@[simp] theorem State.tick_gcD (s : State) : s.tick.gcD = s.gcD := rfl
@[simp] theorem State.tick_ready (s : State) : s.tick.ready = s.ready := rfl
@[simp] theorem State.tick_task (s : State) : s.tick.task = s.task := rfl
@[simp] theorem State.tick_sq (s : State) : s.tick.sq = s.sq := rfl
@[simp] theorem State.tick_ma (s : State) : s.tick.ma = s.ma := rfl
@[simp] theorem State.tick_mb (s : State) : s.tick.mb = s.mb := rfl
@[simp] theorem State.tick_maWritten (s : State) : s.tick.maWritten = s.maWritten := rfl
@[simp] theorem State.tick_acc (s : State) : s.tick.acc = s.acc := rfl
@[simp] theorem State.tick_uop (s : State) : s.tick.uop = s.uop := rfl
@[simp] theorem State.tick_img (s : State) : s.tick.img = s.img := rfl
@[simp] theorem State.tick_rsp (s : State) : s.tick.rsp = none := rfl
@[simp] theorem State.tick_inputs (s : State) : s.tick.inputs = inputsTick s.inputs := rfl

@[simp] theorem State.takeUop_build (s : State) : s.takeUop.build = s.build := rfl
@[simp] theorem State.takeUop_x (s : State) : s.takeUop.x = s.x := rfl
@[simp] theorem State.takeUop_d (s : State) : s.takeUop.d = s.d := rfl
@[simp] theorem State.takeUop_gcF (s : State) : s.takeUop.gcF = s.gcF := rfl
@[simp] theorem State.takeUop_gcD (s : State) : s.takeUop.gcD = s.gcD := rfl
@[simp] theorem State.takeUop_ready (s : State) : s.takeUop.ready = s.ready := rfl
@[simp] theorem State.takeUop_task (s : State) : s.takeUop.task = s.task := rfl
@[simp] theorem State.takeUop_sq (s : State) : s.takeUop.sq = s.sq := rfl
@[simp] theorem State.takeUop_ma (s : State) : s.takeUop.ma = s.ma := rfl
@[simp] theorem State.takeUop_mb (s : State) : s.takeUop.mb = s.mb := rfl
@[simp] theorem State.takeUop_maWritten (s : State) : s.takeUop.maWritten = s.maWritten := rfl
@[simp] theorem State.takeUop_acc (s : State) : s.takeUop.acc = s.acc := rfl
@[simp] theorem State.takeUop_uop (s : State) : s.takeUop.uop = none := rfl
@[simp] theorem State.takeUop_img (s : State) : s.takeUop.img = s.img := rfl
@[simp] theorem State.takeUop_rsp (s : State) : s.takeUop.rsp = none := rfl
@[simp] theorem State.takeUop_inputs (s : State) : s.takeUop.inputs = inputsTick s.inputs := rfl

@[simp] theorem State.accept_build (s : State) (w : BitVec 196) (i : BitVec 352) (l : List PortInput) : (s.accept w i l).build = s.build := rfl
@[simp] theorem State.accept_x (s : State) (w : BitVec 196) (i : BitVec 352) (l : List PortInput) : (s.accept w i l).x = s.x := rfl
@[simp] theorem State.accept_d (s : State) (w : BitVec 196) (i : BitVec 352) (l : List PortInput) : (s.accept w i l).d = s.d := rfl
@[simp] theorem State.accept_gcF (s : State) (w : BitVec 196) (i : BitVec 352) (l : List PortInput) : (s.accept w i l).gcF = s.gcF := rfl
@[simp] theorem State.accept_gcD (s : State) (w : BitVec 196) (i : BitVec 352) (l : List PortInput) : (s.accept w i l).gcD = s.gcD := rfl
@[simp] theorem State.accept_ready (s : State) (w : BitVec 196) (i : BitVec 352) (l : List PortInput) : (s.accept w i l).ready = s.ready := rfl
@[simp] theorem State.accept_task (s : State) (w : BitVec 196) (i : BitVec 352) (l : List PortInput) : (s.accept w i l).task = s.task := rfl
@[simp] theorem State.accept_sq (s : State) (w : BitVec 196) (i : BitVec 352) (l : List PortInput) : (s.accept w i l).sq = s.sq := rfl
@[simp] theorem State.accept_ma (s : State) (w : BitVec 196) (i : BitVec 352) (l : List PortInput) : (s.accept w i l).ma = s.ma := rfl
@[simp] theorem State.accept_mb (s : State) (w : BitVec 196) (i : BitVec 352) (l : List PortInput) : (s.accept w i l).mb = s.mb := rfl
@[simp] theorem State.accept_maWritten (s : State) (w : BitVec 196) (i : BitVec 352) (l : List PortInput) : (s.accept w i l).maWritten = s.maWritten := rfl
@[simp] theorem State.accept_acc (s : State) (w : BitVec 196) (i : BitVec 352) (l : List PortInput) : (s.accept w i l).acc = s.acc := rfl
@[simp] theorem State.accept_uop (s : State) (w : BitVec 196) (i : BitVec 352) (l : List PortInput) : (s.accept w i l).uop = s.uop := rfl
@[simp] theorem State.accept_img (s : State) (w : BitVec 196) (i : BitVec 352) (l : List PortInput) : (s.accept w i l).img = sampledImg (decodeCommand w) s.img i := rfl
@[simp] theorem State.accept_rsp (s : State) (w : BitVec 196) (i : BitVec 352) (l : List PortInput) : (s.accept w i l).rsp = none := rfl
@[simp] theorem State.accept_inputs (s : State) (w : BitVec 196) (i : BitVec 352) (l : List PortInput) : (s.accept w i l).inputs = l := rfl

@[simp] theorem State.finishInit_build (s : State) (n : Operand) : (s.finishInit n).build = s.build := by cases s; rfl
@[simp] theorem State.finishInit_x (s : State) (n : Operand) : (s.finishInit n).x = s.x := by cases s; rfl
@[simp] theorem State.finishInit_d (s : State) (n : Operand) : (s.finishInit n).d = s.d + lo32 n * Config.weyl := rfl
@[simp] theorem State.finishInit_gcF (s : State) (n : Operand) : (s.finishInit n).gcF = none := by cases s; rfl
@[simp] theorem State.finishInit_gcD (s : State) (n : Operand) : (s.finishInit n).gcD = none := by cases s; rfl
@[simp] theorem State.finishInit_ready (s : State) (n : Operand) : (s.finishInit n).ready = true := by cases s; rfl
@[simp] theorem State.finishInit_task (s : State) (n : Operand) : (s.finishInit n).task = none := by cases s; rfl
@[simp] theorem State.finishInit_sq (s : State) (n : Operand) : (s.finishInit n).sq = s.sq := by cases s; rfl
@[simp] theorem State.finishInit_ma (s : State) (n : Operand) : (s.finishInit n).ma = s.ma := by cases s; rfl
@[simp] theorem State.finishInit_mb (s : State) (n : Operand) : (s.finishInit n).mb = s.mb := by cases s; rfl
@[simp] theorem State.finishInit_maWritten (s : State) (n : Operand) : (s.finishInit n).maWritten = s.maWritten := by cases s; rfl
@[simp] theorem State.finishInit_acc (s : State) (n : Operand) : (s.finishInit n).acc = s.acc := by cases s; rfl
@[simp] theorem State.finishInit_uop (s : State) (n : Operand) : (s.finishInit n).uop = s.uop := by cases s; rfl
@[simp] theorem State.finishInit_img (s : State) (n : Operand) : (s.finishInit n).img = s.img := by cases s; rfl
@[simp] theorem State.finishInit_rsp (s : State) (n : Operand) : (s.finishInit n).rsp = some ⟨.ok, false, 0#64, 0#352⟩ := by cases s; rfl
@[simp] theorem State.finishInit_inputs (s : State) (n : Operand) : (s.finishInit n).inputs = s.inputs := by cases s; rfl

@[simp] theorem State.finishSkip_build (s : State) (n : Operand) : (s.finishSkip n).build = s.build := by cases s; rfl
@[simp] theorem State.finishSkip_x (s : State) (n : Operand) : (s.finishSkip n).x = s.x := by cases s; rfl
@[simp] theorem State.finishSkip_d (s : State) (n : Operand) : (s.finishSkip n).d = s.d + lo32 n * Config.weyl := rfl
@[simp] theorem State.finishSkip_gcF (s : State) (n : Operand) : (s.finishSkip n).gcF = s.gcF := by cases s; rfl
@[simp] theorem State.finishSkip_gcD (s : State) (n : Operand) : (s.finishSkip n).gcD = s.gcD := by cases s; rfl
@[simp] theorem State.finishSkip_ready (s : State) (n : Operand) : (s.finishSkip n).ready = s.ready := by cases s; rfl
@[simp] theorem State.finishSkip_task (s : State) (n : Operand) : (s.finishSkip n).task = none := by cases s; rfl
@[simp] theorem State.finishSkip_sq (s : State) (n : Operand) : (s.finishSkip n).sq = s.sq := by cases s; rfl
@[simp] theorem State.finishSkip_ma (s : State) (n : Operand) : (s.finishSkip n).ma = s.ma := by cases s; rfl
@[simp] theorem State.finishSkip_mb (s : State) (n : Operand) : (s.finishSkip n).mb = s.mb := by cases s; rfl
@[simp] theorem State.finishSkip_maWritten (s : State) (n : Operand) : (s.finishSkip n).maWritten = s.maWritten := by cases s; rfl
@[simp] theorem State.finishSkip_acc (s : State) (n : Operand) : (s.finishSkip n).acc = s.acc := by cases s; rfl
@[simp] theorem State.finishSkip_uop (s : State) (n : Operand) : (s.finishSkip n).uop = s.uop := by cases s; rfl
@[simp] theorem State.finishSkip_img (s : State) (n : Operand) : (s.finishSkip n).img = s.img := by cases s; rfl
@[simp] theorem State.finishSkip_rsp (s : State) (n : Operand) : (s.finishSkip n).rsp = some ⟨.ok, false, 0#64, 0#352⟩ := by cases s; rfl
@[simp] theorem State.finishSkip_inputs (s : State) (n : Operand) : (s.finishSkip n).inputs = s.inputs := by cases s; rfl

@[simp] theorem State.finishSkipsub_build (s : State) : s.finishSkipsub.build = s.build := rfl
@[simp] theorem State.finishSkipsub_x (s : State) : s.finishSkipsub.x = s.x := rfl
@[simp] theorem State.finishSkipsub_d (s : State) : s.finishSkipsub.d = s.d := rfl
@[simp] theorem State.finishSkipsub_gcF (s : State) : s.finishSkipsub.gcF = s.gcF := rfl
@[simp] theorem State.finishSkipsub_gcD (s : State) : s.finishSkipsub.gcD = s.gcD := rfl
@[simp] theorem State.finishSkipsub_ready (s : State) : s.finishSkipsub.ready = s.ready := rfl
@[simp] theorem State.finishSkipsub_task (s : State) : s.finishSkipsub.task = none := rfl
@[simp] theorem State.finishSkipsub_sq (s : State) : s.finishSkipsub.sq = s.sq := rfl
@[simp] theorem State.finishSkipsub_ma (s : State) : s.finishSkipsub.ma = s.ma := rfl
@[simp] theorem State.finishSkipsub_mb (s : State) : s.finishSkipsub.mb = s.mb := rfl
@[simp] theorem State.finishSkipsub_maWritten (s : State) : s.finishSkipsub.maWritten = s.maWritten := rfl
@[simp] theorem State.finishSkipsub_acc (s : State) : s.finishSkipsub.acc = s.acc := rfl
@[simp] theorem State.finishSkipsub_uop (s : State) : s.finishSkipsub.uop = s.uop := rfl
@[simp] theorem State.finishSkipsub_img (s : State) : s.finishSkipsub.img = s.img := rfl
@[simp] theorem State.finishSkipsub_rsp (s : State) : s.finishSkipsub.rsp = some ⟨.ok, false, 0#64, 0#352⟩ := rfl
@[simp] theorem State.finishSkipsub_inputs (s : State) : s.finishSkipsub.inputs = s.inputs := rfl

@[simp] theorem State.resetTo_ready (s : State) (l : List PortInput) : (s.resetTo l).ready = false := rfl
@[simp] theorem State.resetTo_task (s : State) (l : List PortInput) : (s.resetTo l).task = none := rfl
@[simp] theorem State.resetTo_build (s : State) (l : List PortInput) : (s.resetTo l).build = s.build := rfl
@[simp] theorem State.resetTo_rsp (s : State) (l : List PortInput) : (s.resetTo l).rsp = none := rfl
@[simp] theorem State.resetTo_uop (s : State) (l : List PortInput) : (s.resetTo l).uop = none := rfl
@[simp] theorem State.resetTo_img (s : State) (l : List PortInput) : (s.resetTo l).img = [] := rfl
@[simp] theorem State.resetTo_maWritten (s : State) (l : List PortInput) : (s.resetTo l).maWritten = false := rfl
@[simp] theorem State.resetTo_sq (s : State) (l : List PortInput) : (s.resetTo l).sq = Sequencer.reset := rfl
@[simp] theorem State.resetTo_inputs (s : State) (l : List PortInput) : (s.resetTo l).inputs = l := rfl

end Sys2Proof.Machine
end

