-- ==== Sys2Proof/Laws/Jump.lean ====
section
/-! SUPPORT. What a sequence of micro-operations can change: the shift register, the accumulator and the scratch
matrices. -/

namespace Sys2Proof.Machine

/-- Everything a sequence of micro-operations can do to the state. -/
theorem runMicros_frame (ms : List MicroOp) (s : State) :
    ∃ x acc ma mb mw, runMicros ms s =
      { s with x := x, acc := acc, ma := ma, mb := mb, maWritten := mw } := by
  induction ms generalizing s with
  | nil => exact ⟨s.x, s.acc, s.ma, s.mb, s.maWritten, rfl⟩
  | cons m ms ih =>
    obtain ⟨x, acc, ma, mb, mw, h⟩ := ih (applyMicro m s)
    refine ⟨x, acc, ma, mb, mw, ?_⟩
    rw [runMicros, List.foldl_cons, ← runMicros, h]
    cases m <;> rfl

/-- Everything a jump can do to the state. -/
theorem jump_frame (t : TableSel) (v : BitVec 64) (s : State) :
    ∃ x acc ma mb mw, jump t v s = { s with x := x, acc := acc, ma := ma, mb := mb, maWritten := mw } :=
  runMicros_frame _ s

theorem runMicros_append (ms ns : List MicroOp) (s : State) :
    runMicros (ms ++ ns) s = runMicros ns (runMicros ms s) := List.foldl_append

@[simp] theorem jump_build (t : TableSel) (v : BitVec 64) (s : State) : (jump t v s).build = s.build := by
  obtain ⟨_, _, _, _, _, h⟩ := jump_frame t v s; simp [h]
@[simp] theorem jump_d (t : TableSel) (v : BitVec 64) (s : State) : (jump t v s).d = s.d := by
  obtain ⟨_, _, _, _, _, h⟩ := jump_frame t v s; simp [h]
@[simp] theorem jump_gcF (t : TableSel) (v : BitVec 64) (s : State) : (jump t v s).gcF = s.gcF := by
  obtain ⟨_, _, _, _, _, h⟩ := jump_frame t v s; simp [h]
@[simp] theorem jump_gcD (t : TableSel) (v : BitVec 64) (s : State) : (jump t v s).gcD = s.gcD := by
  obtain ⟨_, _, _, _, _, h⟩ := jump_frame t v s; simp [h]
@[simp] theorem jump_ready (t : TableSel) (v : BitVec 64) (s : State) : (jump t v s).ready = s.ready := by
  obtain ⟨_, _, _, _, _, h⟩ := jump_frame t v s; simp [h]
@[simp] theorem jump_task (t : TableSel) (v : BitVec 64) (s : State) : (jump t v s).task = s.task := by
  obtain ⟨_, _, _, _, _, h⟩ := jump_frame t v s; simp [h]
@[simp] theorem jump_sq (t : TableSel) (v : BitVec 64) (s : State) : (jump t v s).sq = s.sq := by
  obtain ⟨_, _, _, _, _, h⟩ := jump_frame t v s; simp [h]
@[simp] theorem jump_uop (t : TableSel) (v : BitVec 64) (s : State) : (jump t v s).uop = s.uop := by
  obtain ⟨_, _, _, _, _, h⟩ := jump_frame t v s; simp [h]
@[simp] theorem jump_img (t : TableSel) (v : BitVec 64) (s : State) : (jump t v s).img = s.img := by
  obtain ⟨_, _, _, _, _, h⟩ := jump_frame t v s; simp [h]
@[simp] theorem jump_rsp (t : TableSel) (v : BitVec 64) (s : State) : (jump t v s).rsp = s.rsp := by
  obtain ⟨_, _, _, _, _, h⟩ := jump_frame t v s; simp [h]
@[simp] theorem jump_inputs (t : TableSel) (v : BitVec 64) (s : State) : (jump t v s).inputs = s.inputs := by
  obtain ⟨_, _, _, _, _, h⟩ := jump_frame t v s; simp [h]

end Sys2Proof.Machine
end

