-- ==== Sys2Proof/Laws/Exec.lean ====
section
/-! SUPPORT. The meaning of each command, once for a ready engine and once for one that is not: what later proofs cite
in place of unfolding a meaning. -/

namespace Sys2Proof.Machine

variable {s : State}

theorem exec_init (seed subsequence offset : Operand) :
    exec (.init seed subsequence offset) s =
      .next ((jump .step offset (jump .sub subsequence (s.seedExpand seed))).finishInit offset) := rfl

theorem exec_next (h : s.ready = true) :
    exec .next s = .next ({ s with x := s.x.advance, d := s.d + Config.weyl }.respond .ok false
      (zext64 (outputWord s.x.advance (s.d + Config.weyl)))) := by simp [exec, execNext, h]

theorem exec_skip (n : Operand) (h : s.ready = true) :
    exec (.skip n) s = .next ((jump .step n s).finishSkip n) := by simp [exec, execSkip, h]

theorem exec_skipsub (n : Operand) (h : s.ready = true) :
    exec (.skipsub n) s = .next (jump .sub n s).finishSkipsub := by simp [exec, execSkipsub, h]

theorem exec_gcgetf (h : s.ready = true) :
    exec .gcgetf s = .next (s.respond .ok s.gcFValid (zext64 (gcFField s.gcF))) := by simp [exec, execGcgetf, h]

theorem exec_gcgetd (h : s.ready = true) :
    exec .gcgetd s = .next (s.respond .ok s.gcDValid (gcDField s.gcD)) := by simp [exec, execGcgetd, h]

theorem exec_gcputf (b : Word) (h : s.ready = true) :
    exec (.gcputf b) s = .next ({ s with gcF := some b }.respond .ok false 0#64) := by simp [exec, execGcputf, h]

theorem exec_gcputd (b : Operand) (h : s.ready = true) :
    exec (.gcputd b) s = .next ({ s with gcD := some b }.respond .ok false 0#64) := by simp [exec, execGcputd, h]

theorem exec_gcclrf (h : s.ready = true) :
    exec .gcclrf s = .next ({ s with gcF := none }.respond .ok false 0#64) := by simp [exec, execGcclrf, h]

theorem exec_gcclrd (h : s.ready = true) :
    exec .gcclrd s = .next ({ s with gcD := none }.respond .ok false 0#64) := by simp [exec, execGcclrd, h]

theorem exec_save (h : s.ready = true) :
    exec .save s = .next ({ s with img := saveImage s }.answer ⟨.ok, false, 0#64, imgPort (saveImage s)⟩) := by
  simp [exec, execSave, h]

theorem exec_restore_good (h : imageBad s.img = false) :
    exec .restore s = .next ({ s with x := imgX s.img, d := imgD s.img, gcF := imgGcF s.img, gcD := imgGcD s.img,
                                      ready := true }.respond .ok false 0#64) := by simp [exec, execRestore, h]

theorem exec_restore_bad (h : imageBad s.img = true) : exec .restore s = .next (s.raise .badImage) := by
  simp [exec, execRestore, h]

theorem exec_next_notReady (h : s.ready = false) : exec .next s = .next (s.raise .notReady) := by
  simp [exec, execNext, h]
theorem exec_skip_notReady (n : Operand) (h : s.ready = false) : exec (.skip n) s = .next (s.raise .notReady) := by
  simp [exec, execSkip, h]
theorem exec_skipsub_notReady (n : Operand) (h : s.ready = false) :
    exec (.skipsub n) s = .next (s.raise .notReady) := by simp [exec, execSkipsub, h]
theorem exec_gcgetf_notReady (h : s.ready = false) : exec .gcgetf s = .next (s.raise .notReady) := by
  simp [exec, execGcgetf, h]
theorem exec_gcgetd_notReady (h : s.ready = false) : exec .gcgetd s = .next (s.raise .notReady) := by
  simp [exec, execGcgetd, h]
theorem exec_gcputf_notReady (b : Word) (h : s.ready = false) :
    exec (.gcputf b) s = .next (s.raise .notReady) := by simp [exec, execGcputf, h]
theorem exec_gcputd_notReady (b : Operand) (h : s.ready = false) :
    exec (.gcputd b) s = .next (s.raise .notReady) := by simp [exec, execGcputd, h]
theorem exec_gcclrf_notReady (h : s.ready = false) : exec .gcclrf s = .next (s.raise .notReady) := by
  simp [exec, execGcclrf, h]
theorem exec_gcclrd_notReady (h : s.ready = false) : exec .gcclrd s = .next (s.raise .notReady) := by
  simp [exec, execGcclrd, h]
theorem exec_save_notReady (h : s.ready = false) : exec .save s = .next (s.raise .notReady) := by
  simp [exec, execSave, h]

end Sys2Proof.Machine
end

