-- ==== Sys2Proof/Laws/Matrix.lean ====
section
/-! SUPPORT. The two views of the shift register, and the accumulator of the matrix product. -/

namespace Sys2Proof.Machine

/-- Bit `32*i + j` of the vector view is bit `j` of word `i` (R12). -/
theorem ShiftReg.toVec_getLsbD (x : ShiftReg) (r : Nat) :
    x.toVec.getLsbD r =
      if r < 32 then x.x0.getLsbD r
      else if r < 64 then x.x1.getLsbD (r - 32)
      else if r < 96 then x.x2.getLsbD (r - 64)
      else if r < 128 then x.x3.getLsbD (r - 96)
      else x.x4.getLsbD (r - 128) := by
  unfold ShiftReg.toVec
  simp only [BitVec.getLsbD_append]
  by_cases h0 : r < 32
  · simp [h0]
  · by_cases h1 : r < 64
    · rw [if_neg h0, if_pos (show r - 32 < 32 by omega), if_neg h0, if_pos h1]
    · by_cases h2 : r < 96
      · rw [if_neg h0, if_neg (show ¬ r - 32 < 32 by omega), if_pos (show r - 32 - 32 < 32 by omega), if_neg h0,
          if_neg h1, if_pos h2, Nat.sub_sub]
      · by_cases h3 : r < 128
        · rw [if_neg h0, if_neg (show ¬ r - 32 < 32 by omega), if_neg (show ¬ r - 32 - 32 < 32 by omega),
            if_pos (show r - 32 - 32 - 32 < 32 by omega), if_neg h0, if_neg h1, if_neg h2, if_pos h3, Nat.sub_sub,
            Nat.sub_sub]
        · rw [if_neg h0, if_neg (show ¬ r - 32 < 32 by omega), if_neg (show ¬ r - 32 - 32 < 32 by omega),
            if_neg (show ¬ r - 32 - 32 - 32 < 32 by omega), if_neg h0, if_neg h1, if_neg h2, if_neg h3, Nat.sub_sub,
            Nat.sub_sub, Nat.sub_sub]

/-- The words of the vector view are the registers. -/
@[simp] theorem ShiftReg.ofVec_toVec (x : ShiftReg) : ShiftReg.ofVec x.toVec = x := by
  obtain ⟨a, b, c, d, e⟩ := x
  simp only [ShiftReg.ofVec, ShiftReg.mk.injEq]
  refine ⟨?_, ?_, ?_, ?_, ?_⟩ <;> refine BitVec.eq_of_getLsbD_eq fun i hi => ?_ <;>
    rw [BitVec.getLsbD_extractLsb', ShiftReg.toVec_getLsbD]
  · simp [hi]
  · have h1 : ¬ 32 + i < 32 := by omega
    have h2 : 32 + i < 64 := by omega
    simp [hi, h2]
  · have h1 : ¬ 64 + i < 32 := by omega
    have h2 : ¬ 64 + i < 64 := by omega
    have h3 : 64 + i < 96 := by omega
    simp [hi, h1, h3]
  · have h1 : ¬ 96 + i < 32 := by omega
    have h2 : ¬ 96 + i < 64 := by omega
    have h3 : 96 + i < 128 := by omega
    simp [hi, h1, h2, h3]
  · have h1 : ¬ 128 + i < 32 := by omega
    have h2 : ¬ 128 + i < 64 := by omega
    have h3 : ¬ 128 + i < 96 := by omega
    simp [hi, h1, h2, h3]

/-- The vector view of the words of a vector is that vector. -/
@[simp] theorem ShiftReg.toVec_ofVec (v : Vec) : (ShiftReg.ofVec v).toVec = v := by
  refine BitVec.eq_of_getLsbD_eq fun r hr => ?_
  rw [ShiftReg.toVec_getLsbD]
  simp only [ShiftReg.ofVec, BitVec.getLsbD_extractLsb']
  split
  · next h => simp [h]
  · split
    · have a : r - 32 < 32 := by omega
      have b : 32 + (r - 32) = r := by omega
      simp [a, b]
    · split
      · have a : r - 64 < 32 := by omega
        have b : 64 + (r - 64) = r := by omega
        simp [a, b]
      · split
        · have a : r - 96 < 32 := by omega
          have b : 96 + (r - 96) = r := by omega
          simp [a, b]
        · have a : r - 128 < 32 := by omega
          have b : 128 + (r - 128) = r := by omega
          simp [a, b]

theorem ShiftReg.toVec_injective : Function.Injective ShiftReg.toVec := fun a b h => by
  rw [← ShiftReg.ofVec_toVec a, h, ShiftReg.ofVec_toVec]

@[simp] theorem ShiftReg.toVec_zero : ShiftReg.zero.toVec = 0#160 := by decide

theorem ShiftReg.toVec_eq_zero (x : ShiftReg) : x.toVec = 0#160 ↔ x = ShiftReg.zero := by
  rw [← ShiftReg.toVec_zero]
  exact ShiftReg.toVec_injective.eq_iff

/-- The two views commute with one step. -/
@[simp] theorem stepA_toVec (x : ShiftReg) : stepA x.toVec = x.advance.toVec := by simp [stepA]

/-- The accumulator of the product may be taken out of the loop (R80). -/
theorem mulVecFrom_acc (v : Vec) (r : Nat) (m : JumpMatrix) (acc : Vec) :
    mulVecFrom v r m acc = acc ^^^ mulVecFrom v r m 0#160 := by
  induction m generalizing r acc with
  | nil => simp [mulVecFrom]
  | cons row m ih =>
    rw [mulVecFrom, mulVecFrom, ih (r + 1) (if v.getLsbD r then acc ^^^ row else acc),
      ih (r + 1) (if v.getLsbD r then 0#160 ^^^ row else 0#160)]
    split <;> simp [BitVec.xor_assoc]

/-- One row of the product (R80). -/
theorem mulVecFrom_cons (v : Vec) (r : Nat) (row : Vec) (m : JumpMatrix) :
    mulVecFrom v r (row :: m) 0#160 = (if v.getLsbD r then row else 0#160) ^^^ mulVecFrom v (r + 1) m 0#160 := by
  rw [mulVecFrom, mulVecFrom_acc]
  split <;> simp

@[simp] theorem matrixOf_length (f : Vec → Vec) : (matrixOf f).length = 160 := by simp [matrixOf]

@[simp] theorem mulMat_length (a b : JumpMatrix) : (mulMat a b).length = a.length := by simp [mulMat]

/-- Every table entry has 160 rows (R42). -/
@[simp] theorem powTwo_length (k : Nat) : (powTwo k).length = 160 := by
  induction k with
  | zero => exact matrixOf_length stepA
  | succ k ih => simpa [powTwo, squareMat] using ih

end Sys2Proof.Machine
end

