-- ==== Sys2Proof/Laws/Memory.lean ====
section
/-! SUPPORT. The laws of the byte-addressed space: a read after a write, and that every operation keeps the canonical
form. -/

namespace Sys2Proof.Machine

theorem Memory.wf_cons (c : Host.Cell) (m : Memory) :
    Memory.wf (c :: m) = true ↔
      c.1 < imgSize ∧ c.2 ≠ Memory.unlisted ∧ (∀ e ∈ m, c.1 < e.1) ∧ Memory.wf m = true := by
  simp [Memory.wf, List.all_eq_true, and_assoc]

/-- Below every listed address a space reads as unlisted. -/
theorem Memory.read_of_lt (m : Memory) (a : Nat) (h : ∀ e ∈ m, a < e.1) : Memory.read m a = Memory.unlisted := by
  induction m with
  | nil => rfl
  | cons c m ih =>
    have hc : c.1 ≠ a := by have := h c (by simp); omega
    simp only [Memory.read, if_neg hc]
    exact ih fun e he => h e (by simp [he])

theorem Memory.read_cellFor (a b : Nat) (v : Byte) (m : Memory) (h : a = b → Memory.read m b = Memory.unlisted) :
    Memory.read (Memory.cellFor a v m) b = if a = b then v else Memory.read m b := by
  unfold Memory.cellFor
  by_cases hv : v = Memory.unlisted
  · by_cases hab : a = b
    · simp [hv, hab, h hab]
    · simp [hv, hab]
  · by_cases hab : a = b <;> simp [hv, hab, Memory.read]

/-- Reading a byte after a write of a byte. -/
theorem Memory.read_write (m : Memory) (a b : Nat) (v : Byte) (h : Memory.wf m = true) :
    Memory.read (Memory.write m a v) b = if a = b then v else Memory.read m b := by
  induction m with
  | nil => exact Memory.read_cellFor a b v [] fun _ => rfl
  | cons c m ih =>
    obtain ⟨_, _, hlt, hwf⟩ := (Memory.wf_cons c m).1 h
    unfold Memory.write
    by_cases h1 : a < c.1
    · rw [if_pos h1, Memory.read_cellFor]
      rintro rfl
      refine Memory.read_of_lt _ _ fun e he => ?_
      rcases List.mem_cons.1 he with rfl | he
      · exact h1
      · exact h1.trans (hlt e he)
    · rw [if_neg h1]
      by_cases h2 : c.1 = a
      · rw [if_pos h2, Memory.read_cellFor]
        · by_cases hab : a = b
          · simp [hab]
          · have : c.1 ≠ b := by omega
            simp [hab, Memory.read, this]
        · rintro rfl
          exact Memory.read_of_lt _ _ fun e he => h2 ▸ hlt e he
      · rw [if_neg h2]
        by_cases hcb : c.1 = b
        · have hab : a ≠ b := by omega
          simp [Memory.read, hcb, hab]
        · simp [Memory.read, hcb, ih hwf]

theorem Memory.mem_cellFor (a : Nat) (v : Byte) (m : Memory) (e : Host.Cell) (h : e ∈ Memory.cellFor a v m) :
    e.1 = a ∨ e ∈ m := by
  unfold Memory.cellFor at h
  split at h
  · exact .inr h
  · rcases List.mem_cons.1 h with rfl | h
    · exact .inl rfl
    · exact .inr h

theorem Memory.mem_write (m : Memory) (a : Nat) (v : Byte) (e : Host.Cell) (h : e ∈ Memory.write m a v) :
    e.1 = a ∨ e ∈ m := by
  induction m with
  | nil => exact Memory.mem_cellFor a v [] e h
  | cons c m ih =>
    unfold Memory.write at h
    split at h
    · exact Memory.mem_cellFor a v _ e h
    · split at h
      · rcases Memory.mem_cellFor a v m e h with h | h
        · exact .inl h
        · exact .inr (by simp [h])
      · rcases List.mem_cons.1 h with rfl | h
        · exact .inr (by simp)
        · rcases ih h with h | h
          · exact .inl h
          · exact .inr (by simp [h])

theorem Memory.wf_cellFor (a : Nat) (v : Byte) (m : Memory) (ha : a < imgSize) (hlt : ∀ e ∈ m, a < e.1)
    (h : Memory.wf m = true) : Memory.wf (Memory.cellFor a v m) = true := by
  unfold Memory.cellFor
  split
  · exact h
  · next hv => exact (Memory.wf_cons _ _).2 ⟨ha, hv, hlt, h⟩

/-- A write inside the space keeps the canonical form. -/
theorem Memory.wf_write (m : Memory) (a : Nat) (v : Byte) (ha : a < imgSize) (h : Memory.wf m = true) :
    Memory.wf (Memory.write m a v) = true := by
  induction m with
  | nil => exact Memory.wf_cellFor a v [] ha (by simp) rfl
  | cons c m ih =>
    obtain ⟨hc, hv, hlt, hwf⟩ := (Memory.wf_cons c m).1 h
    unfold Memory.write
    split
    · next h1 =>
      refine Memory.wf_cellFor a v _ ha (fun e he => ?_) h
      rcases List.mem_cons.1 he with rfl | he
      · exact h1
      · exact h1.trans (hlt e he)
    · split
      · next h2 => exact Memory.wf_cellFor a v m ha (fun e he => h2 ▸ hlt e he) hwf
      · next h1 h2 =>
        refine (Memory.wf_cons _ _).2 ⟨hc, hv, fun e he => ?_, ih hwf⟩
        rcases Memory.mem_write m a v e he with h | h
        · omega
        · exact hlt e h

/-- A little-endian write inside the space keeps the canonical form. -/
theorem memWrite_wf (m : Memory) (a : Nat) {k : Nat} (v : BitVec k) (n : Nat) (ha : a + n ≤ imgSize)
    (h : Memory.wf m = true) : Memory.wf (memWrite m a v n) = true := by
  induction n with
  | zero => exact h
  | succ n ih => exact Memory.wf_write _ _ _ (by omega) (ih (by omega))

/-- Reading a byte after a little-endian write: inside the written range it is a byte of the value. -/
theorem memWrite_read (m : Memory) (a : Nat) {k : Nat} (v : BitVec k) (n b : Nat) (ha : a + n ≤ imgSize)
    (h : Memory.wf m = true) :
    Memory.read (memWrite m a v n) b =
      if a ≤ b ∧ b < a + n then v.extractLsb' (8 * (b - a)) 8 else Memory.read m b := by
  induction n with
  | zero => rw [if_neg (by omega)]; rfl
  | succ n ih =>
    rw [memWrite, Memory.read_write _ _ _ _ (memWrite_wf m a v n (by omega) h), ih (by omega)]
    by_cases hb : a + n = b
    · have h1 : a ≤ b ∧ b < a + (n + 1) := by omega
      have h2 : b - a = n := by omega
      rw [if_pos hb, if_pos h1, h2]
    · rw [if_neg hb]
      by_cases h1 : a ≤ b ∧ b < a + n
      · rw [if_pos h1, if_pos (by omega)]
      · rw [if_neg h1, if_neg (by omega)]

/-- A bit of a little-endian read is a bit of one of its bytes. -/
theorem memRead_getLsbD (rd : Nat → Byte) (a n i : Nat) :
    (memRead rd a n).getLsbD i = (decide (i < 8 * n) && (rd (a + i / 8)).getLsbD (i % 8)) := by
  induction n generalizing a i with
  | zero => simp [memRead]
  | succ n ih =>
    rw [memRead, BitVec.getLsbD_append]
    by_cases h : i < 8
    · have h1 : i / 8 = 0 := by omega
      have h2 : i % 8 = i := by omega
      have h3 : i < 8 * (n + 1) := by omega
      simp [h, h1, h2, h3]
    · have h1 : (i - 8) / 8 + 1 = i / 8 := by omega
      have h2 : (i - 8) % 8 = i % 8 := by omega
      have h3 : (i - 8 < 8 * n) ↔ (i < 8 * (n + 1)) := by omega
      rw [if_neg h, ih, h2, Nat.add_assoc, Nat.add_comm 1, h1]
      simp [h3]

/-- A little-endian read depends on the bytes of its range only. -/
theorem memRead_congr (rd rd' : Nat → Byte) (a n : Nat) (h : ∀ b, a ≤ b → b < a + n → rd b = rd' b) :
    memRead rd a n = memRead rd' a n := by
  refine BitVec.eq_of_getLsbD_eq fun i hi => ?_
  rw [memRead_getLsbD, memRead_getLsbD, h (a + i / 8) (by omega) (by omega)]

/-- Loading the buffer from the port keeps the canonical form. -/
theorem loadImg_wf (m : Memory) (v : BitVec 352) (h : Memory.wf m = true) : Memory.wf (loadImg m v) = true :=
  memWrite_wf m 0 v imgSize (by simp [imgSize]) h

/-- SAVE keeps the canonical form. -/
theorem saveImage_wf (s : State) (h : Memory.wf s.img = true) : Memory.wf (saveImage s) = true := by
  have w : ∀ (m : Memory) (a : Nat) {k : Nat} (v : BitVec k) (n : Nat), a + n ≤ 44 →
      Memory.wf m = true → Memory.wf (memWrite m a v n) = true := fun m a _ v n ha => memWrite_wf m a v n ha
  exact w _ _ _ _ (by omega) (w _ _ _ _ (by omega) (w _ _ _ _ (by omega) (w _ _ _ _ (by omega) (w _ _ _ _ (by omega)
    (w _ _ _ _ (by omega) (w _ _ _ _ (by omega) (w _ _ _ _ (by omega) (w _ _ _ _ (by omega)
      (w _ _ _ _ (by omega) h)))))))))

end Sys2Proof.Machine
end

