-- ==== Sys2Proof/Laws/PerInstr.lean ====
section
/-! SUPPORT. Per-instruction family `EncodesInSpace`: each constructor's encoding is a word of the space that its row of
spec/opcode_table.json names, of that space's width (R61, R67). -/

namespace Sys2Proof.Laws

/-- An index of `0..N-1` fits in `MIW` bits (R67). -/
theorem le_two_pow_miw (n : Nat) : n ≤ 2 ^ miw n := by
  unfold miw ceilLog2
  split
  · next h => exact h.trans (Nat.one_le_two_pow)
  · next h =>
    have h1 : n - 1 < 2 ^ (Nat.log2 (n - 1) + 1) := Nat.lt_log2_self
    have h2 : 2 ^ (Nat.log2 (n - 1) + 1) ≤ 2 ^ max 1 (Nat.log2 (n - 1) + 1) :=
      Nat.pow_le_pow_right (by omega) (Nat.le_max_right ..)
    omega

/-- A micro-operation word is narrower than `MIW + 3` bits (R67). -/
theorem microOpWord_lt (n mop b mi : Nat) (hm : mop < 4) (hb : b < 2) (hi : mi < 2 ^ miw n) :
    microOpWord n mop b mi < 2 ^ (miw n + 3) := by
  unfold microOpWord
  have e1 : 2 ^ (miw n + 1) = 2 ^ miw n * 2 := Nat.pow_succ ..
  have e3 : 2 ^ (miw n + 3) = 2 ^ miw n * 8 := by rw [Nat.pow_add]
  rw [e1, e3]
  have h1 : mop * (2 ^ miw n * 2) ≤ 3 * (2 ^ miw n * 2) := Nat.mul_le_mul_right _ (by omega)
  have h2 : b * 2 ^ miw n ≤ 1 * 2 ^ miw n := Nat.mul_le_mul_right _ (by omega)
  omega

theorem tselBit_lt (t : TableSel) : tselBit t < 2 := by cases t <;> decide

/-- The encoding lies in the space that the row of spec/opcode_table.json names. -/
def EncodesInSpace.Statement (i : Instr) : Prop :=
  ∀ c : Config, i.wf c = true →
    match encode c i with
    | .command _ => i.isCommand = true
    | .microOp w => i.isCommand = false ∧ w < 2 ^ (miw c.N + 3)

theorem EncodesInSpace.init (a b c : Operand) : EncodesInSpace.Statement (.init a b c) := fun _ _ => rfl
theorem EncodesInSpace.next : EncodesInSpace.Statement .next := fun _ _ => rfl
theorem EncodesInSpace.skip (n : Operand) : EncodesInSpace.Statement (.skip n) := fun _ _ => rfl
theorem EncodesInSpace.skipsub (n : Operand) : EncodesInSpace.Statement (.skipsub n) := fun _ _ => rfl
theorem EncodesInSpace.gcgetf : EncodesInSpace.Statement .gcgetf := fun _ _ => rfl
theorem EncodesInSpace.gcgetd : EncodesInSpace.Statement .gcgetd := fun _ _ => rfl
theorem EncodesInSpace.gcputf (b : Word) : EncodesInSpace.Statement (.gcputf b) := fun _ _ => rfl
theorem EncodesInSpace.gcputd (b : Operand) : EncodesInSpace.Statement (.gcputd b) := fun _ _ => rfl
theorem EncodesInSpace.gcclrf : EncodesInSpace.Statement .gcclrf := fun _ _ => rfl
theorem EncodesInSpace.gcclrd : EncodesInSpace.Statement .gcclrd := fun _ _ => rfl
theorem EncodesInSpace.save : EncodesInSpace.Statement .save := fun _ _ => rfl
theorem EncodesInSpace.restore : EncodesInSpace.Statement .restore := fun _ _ => rfl

theorem EncodesInSpace.mulvecT (t : TableSel) (mi : Nat) : EncodesInSpace.Statement (.mulvecT t mi) := fun c h =>
  ⟨rfl, microOpWord_lt _ _ _ _ (by decide) (tselBit_lt t) ((of_decide_eq_true h).trans_le (le_two_pow_miw c.N))⟩

theorem EncodesInSpace.mulvecA : EncodesInSpace.Statement .mulvecA := fun _ _ =>
  ⟨rfl, microOpWord_lt _ _ _ _ (by decide) (by decide) (Nat.two_pow_pos _)⟩

theorem EncodesInSpace.loada (t : TableSel) (mi : Nat) : EncodesInSpace.Statement (.loada t mi) := fun c h =>
  ⟨rfl, microOpWord_lt _ _ _ _ (by decide) (tselBit_lt t) ((of_decide_eq_true h).trans_le (le_two_pow_miw c.N))⟩

theorem EncodesInSpace.squarea : EncodesInSpace.Statement .squarea := fun _ _ =>
  ⟨rfl, microOpWord_lt _ _ _ _ (by decide) (by decide) (Nat.two_pow_pos _)⟩

theorem EncodesInSpace.reserved0 : EncodesInSpace.Statement .reserved0 := fun _ _ => rfl
theorem EncodesInSpace.reservedD : EncodesInSpace.Statement .reservedD := fun _ _ => rfl
theorem EncodesInSpace.reservedE : EncodesInSpace.Statement .reservedE := fun _ _ => rfl
theorem EncodesInSpace.reservedF : EncodesInSpace.Statement .reservedF := fun _ _ => rfl

end Sys2Proof.Laws
end

