-- ==== Sys2Proof/Laws/SeedMix.lean ====
section
/-! SUPPORT. The bit-by-bit search decides constraint (c) of R113: a build is admitted exactly when its parameters are in
range and its seed mixing gives no seed an all-zero `x`. -/

namespace Sys2Proof.Machine

/-- Two words agree in their low `j` bits. -/
def LowEq (j : Nat) (a b : Word) : Prop := a.toNat % 2 ^ j = b.toNat % 2 ^ j

theorem LowEq.refl (j : Nat) (a : Word) : LowEq j a a := rfl

/-- Addition keeps agreement in the low bits. -/
theorem LowEq.add {j : Nat} {a b a' b' : Word} (hj : j ≤ 32) (h : LowEq j a b) (h' : LowEq j a' b') :
    LowEq j (a + a') (b + b') := by
  have hd : 2 ^ j ∣ 2 ^ 32 := Nat.pow_dvd_pow 2 hj
  unfold LowEq at *
  rw [BitVec.toNat_add, BitVec.toNat_add, Nat.mod_mod_of_dvd _ hd, Nat.mod_mod_of_dvd _ hd, Nat.add_mod, h, h',
    ← Nat.add_mod]

/-- Exclusive or keeps agreement in the low bits. -/
theorem LowEq.xor {j : Nat} {a b a' b' : Word} (h : LowEq j a b) (h' : LowEq j a' b') :
    LowEq j (a ^^^ a') (b ^^^ b') := by
  unfold LowEq at *
  rw [BitVec.toNat_xor, BitVec.toNat_xor, Nat.xor_mod_two_pow, Nat.xor_mod_two_pow, h, h']

theorem LowEq.term {j : Nat} {a b a' b' : Word} (hj : j ≤ 32) (h : LowEq j a b) (h' : LowEq j a' b') (e : MixTerm) :
    LowEq j (termValue a a' e) (termValue b b' e) := by
  induction e with
  | t0 => exact h
  | t1 => exact h'
  | add e f he hf => exact he.add hj hf
  | xor e f he hf => exact he.xor hf

/-- The five words agree in their low `j` bits. -/
structure RegLowEq (j : Nat) (x y : ShiftReg) : Prop where
  x0 : LowEq j x.x0 y.x0
  x1 : LowEq j x.x1 y.x1
  x2 : LowEq j x.x2 y.x2
  x3 : LowEq j x.x3 y.x3
  x4 : LowEq j x.x4 y.x4

theorem RegLowEq.refl (j : Nat) (x : ShiftReg) : RegLowEq j x x := ⟨rfl, rfl, rfl, rfl, rfl⟩

theorem LowEq.mixInto {j : Nat} {a b a' b' : Word} (hj : j ≤ 32) (m : MixArith) (h : LowEq j a b) (h' : LowEq j a' b') :
    LowEq j (mixInto m a a') (mixInto m b b') := by
  cases m with
  | add => exact h.add hj h'
  | xor => exact h.xor h'

/-- One assignment keeps agreement in the low bits of the five words. -/
theorem RegLowEq.mixOne {j : Nat} {a b a' b' : Word} (hj : j ≤ 32) (h : LowEq j a b) (h' : LowEq j a' b') (o : MixOp)
    {r s : ShiftReg × Word} (hr : RegLowEq j r.1 s.1) : RegLowEq j (mixOne a a' o r).1 (mixOne b b' o s).1 := by
  have ht := LowEq.term hj h h' o.term
  unfold Machine.mixOne
  cases o.reg with
  | x0 => exact ⟨LowEq.mixInto hj _ hr.x0 ht, hr.x1, hr.x2, hr.x3, hr.x4⟩
  | x1 => exact ⟨hr.x0, LowEq.mixInto hj _ hr.x1 ht, hr.x2, hr.x3, hr.x4⟩
  | x2 => exact ⟨hr.x0, hr.x1, LowEq.mixInto hj _ hr.x2 ht, hr.x3, hr.x4⟩
  | x3 => exact ⟨hr.x0, hr.x1, hr.x2, LowEq.mixInto hj _ hr.x3 ht, hr.x4⟩
  | x4 => exact ⟨hr.x0, hr.x1, hr.x2, hr.x3, LowEq.mixInto hj _ hr.x4 ht⟩
  | d => exact hr

/-- The low `j` bits of the mixed `x` depend on the low `j` bits of `t0` and `t1` only. -/
theorem seedMix_lowEq {j : Nat} {a b a' b' : Word} (hj : j ≤ 32) (h : LowEq j a b) (h' : LowEq j a' b') (m : SeedMix)
    {r s : ShiftReg × Word} (hr : RegLowEq j r.1 s.1) : RegLowEq j (seedMix m r a a').1 (seedMix m s b b').1 := by
  induction m generalizing r s with
  | nil => exact hr
  | cons o m ih => exact ih (RegLowEq.mixOne hj h h' o hr)

theorem ShiftReg.lowZero_iff (j : Nat) (x : ShiftReg) : x.lowZero j = true ↔ RegLowEq j x ShiftReg.zero := by
  constructor
  · intro h
    simp only [ShiftReg.lowZero, List.all_cons, List.all_nil, Bool.and_true, Bool.and_eq_true, decide_eq_true_eq] at h
    obtain ⟨h0, h1, h2, h3, h4⟩ := h
    exact ⟨by simpa [LowEq, ShiftReg.zero] using h0, by simpa [LowEq, ShiftReg.zero] using h1,
      by simpa [LowEq, ShiftReg.zero] using h2, by simpa [LowEq, ShiftReg.zero] using h3,
      by simpa [LowEq, ShiftReg.zero] using h4⟩
  · rintro ⟨h0, h1, h2, h3, h4⟩
    simp only [LowEq, ShiftReg.zero, BitVec.toNat_ofNat, Nat.zero_mod] at h0 h1 h2 h3 h4
    simp [ShiftReg.lowZero, h0, h1, h2, h3, h4]

/-- All 32 low bits are zero exactly for the zero register. -/
theorem ShiftReg.lowZero_all (x : ShiftReg) : x.lowZero 32 = true ↔ x = ShiftReg.zero := by
  have word : ∀ w : Word, LowEq 32 w 0#32 ↔ w = 0#32 := fun w => by
    unfold LowEq
    rw [Nat.mod_eq_of_lt w.isLt, Nat.mod_eq_of_lt (0#32).isLt]
    exact BitVec.toNat_inj
  rw [ShiftReg.lowZero_iff]
  obtain ⟨a, b, c, d, e⟩ := x
  constructor
  · rintro ⟨h0, h1, h2, h3, h4⟩
    simp only [ShiftReg.zero, ShiftReg.mk.injEq]
    exact ⟨(word a).1 h0, (word b).1 h1, (word c).1 h2, (word d).1 h3, (word e).1 h4⟩
  · rintro h
    rw [h]
    exact RegLowEq.refl _ _

/-- A pair that leaves `j + 1` bits zero leaves `j` bits zero, with its own low `j` bits in its place. -/
theorem mixLowZero_low {m : SeedMix} {start : ShiftReg × Word} {j a b : Nat} (hj : j < 32)
    (h : mixLowZero m start (j + 1) (a, b) = true) : mixLowZero m start j (a % 2 ^ j, b % 2 ^ j) = true := by
  have low : ∀ x y : Word, LowEq (j + 1) x y → LowEq j x y := fun x y h => by
    have := congrArg (· % 2 ^ j) h
    simpa [LowEq, Nat.mod_mod_of_dvd _ (Nat.pow_dvd_pow 2 (Nat.le_succ j))] using this
  have trunc : ∀ n : Nat, LowEq j (BitVec.ofNat 32 (n % 2 ^ j)) (BitVec.ofNat 32 n) := fun n => by
    have hd : 2 ^ j ∣ 2 ^ 32 := Nat.pow_dvd_pow 2 (by omega)
    unfold LowEq
    rw [BitVec.toNat_ofNat, BitVec.toNat_ofNat, Nat.mod_mod_of_dvd _ hd, Nat.mod_mod_of_dvd _ hd, Nat.mod_mod]
  unfold mixLowZero at *
  rw [ShiftReg.lowZero_iff] at *
  have key := seedMix_lowEq (by omega) (trunc a) (trunc b) m (RegLowEq.refl j start.1)
  exact ⟨key.x0.trans (low _ _ h.x0), key.x1.trans (low _ _ h.x1), key.x2.trans (low _ _ h.x2),
    key.x3.trans (low _ _ h.x3), key.x4.trans (low _ _ h.x4)⟩

/-- The list holds exactly the pairs below `2^j` that leave the low `j` bits zero. -/
def ListsZero (m : SeedMix) (start : ShiftReg × Word) (j : Nat) (c : List (Nat × Nat)) : Prop :=
  ∀ a b, (a, b) ∈ c ↔ a < 2 ^ j ∧ b < 2 ^ j ∧ mixLowZero m start j (a, b) = true

/-- A number below `2^(j+1)` is its low `j` bits, or those and bit `j`. -/
theorem low_or_high {j a : Nat} (h : a < 2 ^ (j + 1)) : a = a % 2 ^ j ∨ a = a % 2 ^ j + 2 ^ j := by
  have hd := Nat.div_add_mod a (2 ^ j)
  have hq : a / 2 ^ j < 2 := Nat.div_lt_of_lt_mul (by rw [← Nat.pow_succ]; exact h)
  interval_cases hq' : a / 2 ^ j <;> omega

theorem ListsZero.extend {m : SeedMix} {start : ShiftReg × Word} {j : Nat} {c : List (Nat × Nat)} (hj : j < 32)
    (h : ListsZero m start j c) : ListsZero m start (j + 1) (extendZero m start j c) := by
  intro a b
  have hp : 2 ^ (j + 1) = 2 ^ j + 2 ^ j := by omega
  simp only [extendZero, List.mem_filter, List.mem_flatMap, List.mem_cons, List.not_mem_nil, or_false, Prod.mk.injEq]
  constructor
  · rintro ⟨⟨⟨p, q⟩, hpq, hcases⟩, hz⟩
    obtain ⟨h1, h2, -⟩ := (h p q).1 hpq
    simp only [Prod.mk.injEq] at hcases
    refine ⟨?_, ?_, hz⟩ <;> omega
  · rintro ⟨ha, hb, hz⟩
    refine ⟨⟨(a % 2 ^ j, b % 2 ^ j), (h _ _).2 ⟨Nat.mod_lt _ (Nat.two_pow_pos j), Nat.mod_lt _ (Nat.two_pow_pos j),
      mixLowZero_low hj hz⟩, ?_⟩, hz⟩
    simp only [Prod.mk.injEq]
    rcases low_or_high ha with ha | ha <;> rcases low_or_high hb with hb | hb
    · exact .inl ⟨ha, hb⟩
    · exact .inr (.inr (.inl ⟨ha, hb⟩))
    · exact .inr (.inl ⟨ha, hb⟩)
    · exact .inr (.inr (.inr ⟨ha, hb⟩))

/-- The search says true exactly when no pair of 32-bit numbers leaves all 32 bits of the five words zero. -/
theorem noZeroMix_iff {m : SeedMix} {start : ShiftReg × Word} (left : Nat) {c : List (Nat × Nat)} (hl : left ≤ 32)
    (h : ListsZero m start (32 - left) c) :
    noZeroMix m start left c = true ↔
      ∀ a b, a < 2 ^ 32 → b < 2 ^ 32 → ¬ mixLowZero m start 32 (a, b) = true := by
  induction left generalizing c with
  | zero =>
    rw [noZeroMix, List.isEmpty_iff, List.eq_nil_iff_forall_not_mem]
    constructor
    · exact fun hc a b ha hb hz => hc (a, b) ((h a b).2 ⟨ha, hb, hz⟩)
    · rintro hn ⟨a, b⟩ hab
      obtain ⟨ha, hb, hz⟩ := (h a b).1 hab
      exact hn a b ha hb hz
  | succ left ih =>
    have e : 32 - (left + 1) = 31 - left := by omega
    have hx := (e ▸ h).extend (by omega : 31 - left < 32)
    have e' : 31 - left + 1 = 32 - left := by omega
    rw [e'] at hx
    have ih' := ih (by omega) hx
    rw [noZeroMix, Bool.or_eq_true, ih']
    refine ⟨fun hc => hc.elim (fun hc => ih'.1 ?_) id, Or.inr⟩
    rw [List.isEmpty_iff.1 hc]
    have : ∀ k : Nat, noZeroMix m start k [] = true := fun k => by cases k <;> rfl
    simpa [extendZero] using this left

/-- Constraint (c) of R113 is decided. -/
theorem seedMixAdmitted_iff (m : SeedMix) : seedMixAdmitted m = true ↔ NonDegenerate m := by
  have h0 : ListsZero m startValues (32 - 32) [(0, 0)] := fun a b => by
    constructor
    · intro h
      obtain ⟨rfl, rfl⟩ : a = 0 ∧ b = 0 := by simpa using h
      refine ⟨by decide, by decide, ?_⟩
      rw [mixLowZero, ShiftReg.lowZero_iff]
      exact ⟨by simp [LowEq, Nat.mod_one], by simp [LowEq, Nat.mod_one], by simp [LowEq, Nat.mod_one],
        by simp [LowEq, Nat.mod_one], by simp [LowEq, Nat.mod_one]⟩
    · rintro ⟨ha, hb, -⟩
      have ha' : a = 0 := by omega
      have hb' : b = 0 := by omega
      simp [ha', hb']
  rw [seedMixAdmitted, noZeroMix_iff 32 (le_refl 32) h0]
  unfold NonDegenerate
  constructor
  · intro h t0 t1 hz
    refine h t0.toNat t1.toNat t0.isLt t1.isLt ?_
    rw [mixLowZero, ShiftReg.lowZero_all]
    simpa using hz
  · intro h a b _ _ hz
    rw [mixLowZero, ShiftReg.lowZero_all] at hz
    exact h _ _ hz

/-- What an admitted build is: the ranges of R6, and constraint (c) of R113. -/
theorem admitted_iff (c : Config) :
    admitted c = true ↔ (1 ≤ c.W ∧ c.W ≤ 64 ∧ 1 ≤ c.N) ∧ NonDegenerate c.seedMix := by
  rw [admitted, Bool.and_eq_true, seedMixAdmitted_iff]
  simp [Config.ok, and_assoc]

theorem admitted_ok {c : Config} (h : admitted c = true) : c.ok = true := (Bool.and_eq_true _ _ ▸ h).1

theorem admitted_nonDegenerate {c : Config} (h : admitted c = true) : NonDegenerate c.seedMix := ((admitted_iff c).1 h).2

end Sys2Proof.Machine
end

