-- ==== Sys2Proof/Laws/Step.lean ====
section
/-! SUPPORT. The inversion of one step: everything a step can be, said once; and what the
sequencer's discipline says of the word on the port. -/

namespace Sys2Proof.Machine

/-- If a step (at either level) answers a next state, it is one of five things: a reset, a micro-operation taken from the
multiplier's port, a line of the sequencer, an accepted command, or nothing. -/
theorem stepWith_cases {run : Instr → State → Host.Outcome State Fault Refusal} {s t : State}
    (h : stepWith run s = .next t) :
    admitted s.build = true ∧
    ((∃ rest, s.inputs = .reset :: rest ∧ t = s.resetTo rest) ∨
     (∃ w i, s.uop = some w ∧ decodeMicroOp s.build.N w = .ok i ∧ exec i s.takeUop = .next t) ∨
     (∃ k, s.uop = none ∧ s.task = some k ∧ t = seqLine k s.tick) ∨
     (∃ w img rest, s.uop = none ∧ s.task = none ∧ s.inputs = .command w img :: rest ∧
        run (decodeCommand w) (s.accept w img rest) = .next t) ∨
     (s.uop = none ∧ s.task = none ∧ t = s.tick)) := by
  unfold stepWith at h
  split at h
  · next hok =>
    refine ⟨hok, ?_⟩
    split at h
    · next rest hin =>
      cases h
      exact .inl ⟨rest, hin, rfl⟩
    · split at h
      · next w hu =>
        unfold takeMicroOp at h
        split at h
        · next i hd => exact .inr (.inl ⟨w, i, hu, hd, h⟩)
        · cases h
        · cases h
      · next hu =>
        split at h
        · next k hk =>
          cases h
          exact .inr (.inr (.inl ⟨k, hu, hk, rfl⟩))
        · next hk =>
          split at h
          · next w img rest hin => exact .inr (.inr (.inr (.inl ⟨w, img, rest, hu, hk, hin, h⟩)))
          · cases h
            exact .inr (.inr (.inr (.inr ⟨hu, hk, rfl⟩)))
  · cases h

/-- A decoded micro-operation word is one of the four micro-operations, its index in the table (R66, R67). -/
theorem decodeMicroOp_cases {n w : Nat} {i : Instr} (h : decodeMicroOp n w = .ok i) :
    (∃ t mi, i = .mulvecT t mi ∧ mi < n) ∨ i = .mulvecA ∨ (∃ t mi, i = .loada t mi ∧ mi < n) ∨ i = .squarea := by
  unfold decodeMicroOp at h
  split at h
  · cases h
  · simp only at h
    split at h
    · split at h
      · next hm => cases h; exact .inl ⟨_, _, rfl, hm⟩
      · cases h
    · cases h; exact .inr (.inl rfl)
    · split at h
      · next hm => cases h; exact .inr (.inr (.inl ⟨_, _, rfl, hm⟩))
      · cases h
    · cases h; exact .inr (.inr (.inr rfl))

/-- A decoded command word is a command (R62, R65). -/
theorem decodeCommand_isCommand (w : BitVec 196) : (decodeCommand w).isCommand = true := by
  unfold decodeCommand
  split <;> rfl

/-- The index field holds every index of the table (R67). -/
theorem le_two_pow_miw (n : Nat) : n ≤ 2 ^ miw n := by
  unfold miw ceilLog2
  split
  · have := Nat.two_pow_pos (max 1 0)
    omega
  · have h := Nat.lt_log2_self (n := n - 1)
    have := Nat.pow_le_pow_right (n := 2) (by decide) (Nat.le_max_right 1 (Nat.log2 (n - 1) + 1))
    omega

/-- The field `mop` of a micro-operation word whose index is in the table (R67). -/
theorem microOpWord_div {n mop mi : Nat} (t : TableSel) (h : mi < n) :
    microOpWord n mop (tselBit t) mi / 2 ^ (miw n + 1) = mop := by
  have h1 := le_two_pow_miw n
  have h2 : tselBit t * 2 ^ miw n + mi < 2 ^ (miw n + 1) := by
    cases t <;> simp only [tselBit, Nat.pow_succ] <;> omega
  have h3 : 0 < 2 ^ (miw n + 1) := Nat.two_pow_pos _
  unfold microOpWord
  rw [Nat.add_assoc, Nat.mul_comm, Nat.mul_add_div h3, Nat.div_eq_of_lt h2, Nat.add_zero]

/-- Under the sequencer's discipline MULVEC.A is not given to the multiplier while `ma` is unwritten (R82). -/
theorem State.IssueInv.readsWrittenMa {s : State} (h : s.IssueInv) : s.readsWrittenMa := by
  intro w hw hd
  obtain ⟨m, he, hm⟩ := h.port w hw
  cases m with
  | mulvecA => exact hm
  | squarea => exact hm
  | mulvecT t mi =>
    obtain rfl : microOpWord s.build.N 0 (tselBit t) mi = w := by
      simpa [MicroOp.toInstr, encode] using he
    simp only [decodeMicroOp, microOpWord_div t hm] at hd
    split at hd
    · cases hd
    · split at hd <;> cases hd
  | loada t mi =>
    obtain rfl : microOpWord s.build.N 2 (tselBit t) mi = w := by
      simpa [MicroOp.toInstr, encode] using he
    simp only [decodeMicroOp, microOpWord_div t hm] at hd
    split at hd
    · cases hd
    · split at hd <;> cases hd

end Sys2Proof.Machine
end

