-- ==== Sys2Proof/Machine/Assembler.lean ====
section
/-! DEFINITION. The notation of the spec's programs (R69): one command a line, as what the owner presents on the port. The
pseudo-instructions of R70 expand to the commands of `Pseudo.expand`. -/

namespace Sys2Proof.Machine

/-- The value of a digit. -/
def digitValue (base : Nat) (ch : Char) : Option Nat :=
  let n := ch.toNat
  let v := if 48 ≤ n ∧ n ≤ 57 then some (n - 48)
           else if 65 ≤ n ∧ n ≤ 70 then some (n - 55)
           else if 97 ≤ n ∧ n ≤ 102 then some (n - 87)
           else none
  v.filter (fun d => decide (d < base))

/-- Digits of a base, with `_` between digit groups (R69). -/
def readDigits (base : Nat) : Nat → List Char → Option Nat
  | acc, [] => some acc
  | acc, ch :: cs =>
    if ch = '_' then readDigits base acc cs
    else (digitValue base ch).bind fun d => readDigits base (acc * base + d) cs

/-- A numeral of a base: at least one digit (R69). Underscores may stand anywhere among the digits, and text without a digit is
refused (DESIGN CHOICE, notes/assumptions/28.md). -/
def readNumeral (base : Nat) (cs : List Char) : Option Nat :=
  if cs.all (fun ch => decide (ch = '_')) then none else readDigits base 0 cs

/-- A number: decimal, `0x` and hexadecimal, `2^k` or `2^k-1` (R69). Anything else is refused (DESIGN CHOICE,
notes/assumptions/28.md). -/
def readNumber (cs : List Char) : Option Nat :=
  match cs with
  | '0' :: 'x' :: ds => readNumeral 16 ds
  | '2' :: '^' :: ds =>
    if ['1', '-'].isPrefixOf ds.reverse then
      (readNumeral 10 (ds.reverse.drop 2).reverse).map fun k => 2 ^ k - 1
    else (readNumeral 10 ds).map fun k => 2 ^ k
  | ds => readNumeral 10 ds

/-- A 64-bit operand. -/
def readOperand (cs : List Char) : Option Operand :=
  (readNumber cs).bind fun n => if n < 2 ^ 64 then some (BitVec.ofNat 64 n) else none

/-- An image: 88 hexadecimal digits, byte 0 first, each byte's high digit first (R69), with no underscore among them
(DESIGN CHOICE, notes/assumptions/28.md). -/
def readImage : (n : Nat) → List Char → Option (BitVec (8 * n))
  | 0, [] => some 0#0
  | n + 1, hi :: lo :: cs =>
    (digitValue 16 hi).bind fun h => (digitValue 16 lo).bind fun l =>
      (readImage n cs).map fun rest => rest ++ BitVec.ofNat 8 (16 * h + l)
  | _, _ => none

/-- The line up to its comment (R69). -/
def dropComment (line : List Char) : List Char := line.takeWhile (fun ch => decide (ch ≠ ';'))

/-- Whether a character separates words. -/
def isBlank (ch : Char) : Bool := decide (ch = ' ') || decide (ch = '\t') || decide (ch = '\r')

/-- The operands of a line: its text after the mnemonic, cut at commas, blanks left out, also those inside an operand, as
in an image written in groups (DESIGN CHOICE, notes/assumptions/28.md). -/
def splitOperands : List Char → List (List Char)
  | [] => [[]]
  | ch :: cs =>
    if isBlank ch then splitOperands cs
    else if ch = ',' then [] :: splitOperands cs
    else
      match splitOperands cs with
      | [] => [[ch]]
      | w :: ws => (ch :: w) :: ws

/-- What the owner presents for an instruction, with no image. -/
def presentInstr (i : Instr) : List PortInput :=
  match encode Config.default i with
  | .command w => [.command w 0#352]
  | .microOp _ => []

/-- A command without operands. -/
def presentPlain (i : Instr) (ops : List (List Char)) : Option (List PortInput) :=
  if ops = [[]] then some (presentInstr i) else none

/-- A command with the one operand `C`; the whole 64-bit field is presented, also for GCPUTF. -/
def presentOne (op : BitVec 4) (ops : List (List Char)) : Option (List PortInput) :=
  match ops with
  | [c] => (readOperand c).map fun c => [.command (commandWord op 0#64 0#64 c) 0#352]
  | _ => none

/-- The lines of a pseudo-instruction (R70). -/
def presentPseudo (p : Pseudo) : List PortInput := p.expand.flatMap presentInstr

/-- The commands of a line with this mnemonic and these operands (R69, R70). -/
def presentLine (mnemonic : List Char) (ops : List (List Char)) : Option (List PortInput) :=
  if mnemonic = "INIT".toList ∨ mnemonic = "CONSTRUCT".toList then
    match ops with
    | [a, b, c] =>
      (readOperand a).bind fun a => (readOperand b).bind fun b => (readOperand c).map fun c =>
        presentPseudo (.construct a b c)
    | _ => none
  else if mnemonic = "INIT0".toList then
    match ops with
    | [a] => (readOperand a).map fun a => presentPseudo (.init0 a)
    | _ => none
  else if mnemonic = "NEXT".toList ∨ mnemonic = "ADVANCE".toList then presentPlain .next ops
  else if mnemonic = "NEXTN".toList then
    match ops with
    | [k] => (readNumber k).map fun k => presentPseudo (.nextn k)
    | _ => none
  else if mnemonic = "SKIP".toList ∨ mnemonic = "DISCARD".toList then presentOne 0x3#4 ops
  else if mnemonic = "SKIPSUB".toList ∨ mnemonic = "DISCARDSUB".toList then presentOne 0x4#4 ops
  else if mnemonic = "GCGETF".toList then presentPlain .gcgetf ops
  else if mnemonic = "GCGETD".toList then presentPlain .gcgetd ops
  else if mnemonic = "GCPUTF".toList then presentOne 0x7#4 ops
  else if mnemonic = "GCPUTD".toList then presentOne 0x8#4 ops
  else if mnemonic = "GCCLRF".toList then presentPlain .gcclrf ops
  else if mnemonic = "GCCLRD".toList then presentPlain .gcclrd ops
  else if mnemonic = "SAVE".toList then presentPlain .save ops
  else if mnemonic = "RESTORE".toList then
    match ops with
    | [img] => (readImage 44 img).map fun v => [.command (commandWord 0xC#4 0#64 0#64 0#64) v]
    | _ => none
  else none

/-- Assemble one line (R69): a blank line or a comment presents nothing; a line that is no command is refused. -/
def assembleLine (line : List Char) : Option (List PortInput) :=
  let body := (dropComment line).dropWhile isBlank
  if body = [] then some []
  else presentLine (body.takeWhile fun ch => !isBlank ch) (splitOperands (body.dropWhile fun ch => !isBlank ch))

end Sys2Proof.Machine
end

