-- ==== Sys2Proof/Tests/Slice0.lean ====
section
/-! SUPPORT. The model's own tests. Every expected value is a row of spec/95_test_vectors.md, a worked encoding of R72, or
written out from the rule that the test names. The last part holds, for each obligation with hypotheses, a concrete
state and operands that meet them. -/

namespace Sys2Proof.Tests

set_option exponentiation.threshold 400

open Sys2Proof Sys2Proof.Machine

/-! ### Decoding: a word of every constructor (95, section 10; R61, R62, R65, R67) -/

theorem test_decode_init : decodeCommand 0x10123456789ABCDEF000000000000000500000000000003E8#196 =
    .init 0x0123456789ABCDEF#64 5#64 1000#64 := by decide
theorem test_decode_next : decodeCommand 0x2000000000000000000000000000000000000000000000000#196 = .next := by decide
theorem test_decode_next_unused_fields :
    decodeCommand 0x2FFFFFFFFFFFFFFFFFFFFFFFFFFFFFFFFFFFFFFFFFFFFFFFF#196 = .next := by decide
theorem test_decode_skip : decodeCommand 0x3000000000000000000000000000000000000000100000000#196 =
    .skip 0x100000000#64 := by decide
theorem test_decode_skipsub : decodeCommand 0x4000000000000000000000000000000000000000000000001#196 =
    .skipsub 1#64 := by decide
theorem test_decode_gcgetf : decodeCommand 0x5000000000000000000000000000000000000000000000000#196 = .gcgetf := by
  decide
theorem test_decode_gcgetd : decodeCommand 0x6000000000000000000000000000000000000000000000000#196 = .gcgetd := by
  decide
theorem test_decode_gcputf : decodeCommand 0x700000000000000000000000000000000000000003F800000#196 =
    .gcputf 0x3F800000#32 := by decide
/-- V-C4: `C[63:32]` is ignored. -/
theorem test_decode_gcputf_high_half : decodeCommand 0x700000000000000000000000000000000FFFFFFFFBF000000#196 =
    .gcputf 0xBF000000#32 := by decide
theorem test_decode_gcputd : decodeCommand 0x800000000000000000000000000000000BFF8000000000000#196 =
    .gcputd 0xBFF8000000000000#64 := by decide
theorem test_decode_gcclrf : decodeCommand 0x9000000000000000000000000000000000000000000000000#196 = .gcclrf := by
  decide
theorem test_decode_gcclrd : decodeCommand 0xA000000000000000000000000000000000000000000000000#196 = .gcclrd := by
  decide
theorem test_decode_save : decodeCommand 0xB000000000000000000000000000000000000000000000000#196 = .save := by decide
theorem test_decode_restore : decodeCommand 0xC000000000000000000000000000000000000000000000000#196 = .restore := by
  decide
theorem test_decode_reserved0 : decodeCommand 0#196 = .reserved0 := by decide
theorem test_decode_reservedD : decodeCommand 0xD000000000000000000000000000000000000000000000000#196 = .reservedD := by
  decide
theorem test_decode_reservedE : decodeCommand 0xE000000000000000000000000000000000000000000000000#196 = .reservedE := by
  decide
theorem test_decode_reservedF : decodeCommand 0xF000000000000000000000000000000000000000000000001#196 = .reservedF := by
  decide
theorem test_decode_mulvecT : decode Config.default (.microOp 0b00100011) = .ok (.mulvecT .sub 3) := by decide
theorem test_decode_mulvecA : decode Config.default (.microOp 0x40) = .ok .mulvecA := by decide
theorem test_decode_loada : decode Config.default (.microOp 0b10011111) = .ok (.loada .step 31) := by decide
theorem test_decode_loada_sub : decode Config.default (.microOp 0xBF) = .ok (.loada .sub 31) := by decide
theorem test_decode_squarea : decode Config.default (.microOp 0b11000000) = .ok .squarea := by decide
/-- P6: with `N = 3` a micro-operation word has 5 bits. -/
theorem test_decode_five_bit_words :
    [0x00, 0x01, 0x02, 0x12, 0x18, 0x08].map (decodeMicroOp 3) =
      [.ok (.mulvecT .step 0), .ok (.mulvecT .step 1), .ok (.mulvecT .step 2), .ok (.loada .step 2), .ok .squarea,
       .ok .mulvecA] := by decide
/-- R67: the index 3 of a table of depth 3, and a word of 9 bits. -/
theorem test_decode_refuses : decodeMicroOp 3 0x03 = .error .tableIndexOutOfRange ∧
    decodeMicroOp 3 0x13 = .error .tableIndexOutOfRange ∧ decodeMicroOp 32 0x100 = .error .microOpTooWide := by decide
theorem test_table_words : decodeTableWord 8 0x3F = some (.mulvecT .sub 31) ∧
    decodeTableWord 196 0x3000000000000000000000000000000000000000000000005 = some (.skip 5#64) ∧
    decodeTableWord 8 0x100 = none ∧ decodeTableWord 200 (2 ^ 196) = none := by decide

/-! ### Well-formedness -/

theorem test_wf_index_in_table : (Instr.mulvecT .step 31).wf Config.default = true ∧
    (Instr.loada .sub 31).wf Config.default = true := by decide
theorem test_wf_refuses_index : (Instr.mulvecT .step 32).wf Config.default = false ∧
    (Instr.loada .sub 32).wf Config.default = false := by decide
theorem test_config_refuses : ({ Config.default with W := 0 }).ok = false ∧ ({ Config.default with W := 65 }).ok = false ∧
    ({ Config.default with N := 0 }).ok = false ∧ Config.default.ok = true ∧
    ({ Config.default with W := 64, N := 1 }).ok = true := by decide

/-- R113: the search finds a pair where there is one. From the words `1, 2, 0, 0, 0`, the pattern `x0 + t0, x1 ^ t1` reaches zero with
`t0 = 2^32 - 1` and `t1 = 2`; with a third word that stays 4 it does not. -/
theorem test_noZeroMix :
    noZeroMix [⟨.x0, .add, .t0⟩, ⟨.x1, .xor, .t1⟩] (⟨1#32, 2#32, 0#32, 0#32, 0#32⟩, 0#32) 32 [(0, 0)] = false ∧
    noZeroMix [⟨.x0, .add, .t0⟩, ⟨.x1, .xor, .t1⟩] (⟨1#32, 2#32, 4#32, 0#32, 0#32⟩, 0#32) 32 [(0, 0)] = true ∧
    admitted Config.default = true := by decide +kernel

/-! ### One step of each instruction -/

/-- A field of the next state. -/
def got {α : Type} (o : Host.Outcome State Fault Refusal) (f : State → α) : Option α :=
  match o with
  | .next t => some (f t)
  | .fault _ => none
  | .refused _ => none

/-- A ready engine with these registers. -/
def engine (x : ShiftReg) (d : Word) : State := { State.reset with x := x, d := d, ready := true }

/-- `X0` of 95, section 4. -/
def x0 : ShiftReg := ⟨0x58213ED2#32, 0x455F2458#32, 0xF8A42704#32, 0xDCD8F87C#32, 0x511DB0D6#32⟩

/-- The engine after `INIT 0, 0, 0` (V-S1). -/
def ready0 : State := engine x0 0x2ABC4DD5#32

/-- A response with no flag and no image. -/
def okData (b : BitVec 64) : Option Response := some ⟨.ok, false, b, 0#352⟩

/-- V-N4. -/
theorem test_next_wraps :
    got (exec .next (engine ⟨0x80000000#32, 0#32, 0#32, 0#32, 0x80000000#32⟩ 0xFFFA783B#32)) (fun t => (t.x, t.d, t.rsp)) =
      some (⟨0#32, 0#32, 0#32, 0x80000000#32, 0x60000000#32⟩, 0#32, okData 0x60000000#64) := by decide
/-- V-N8. -/
theorem test_next : got (exec .next ready0) (fun t => (t.x, t.d, t.rsp)) =
    some (⟨0x455F2458#32, 0xF8A42704#32, 0xDCD8F87C#32, 0x511DB0D6#32, 0x92BD2E1C#32⟩, 0x2AC1D59A#32,
      okData 0xBD7F03B6#64) := by decide
/-- V-I4, the seed whose halves differ. -/
theorem test_init_seed : got (exec (.init 0x0123456789ABCDEF#64 0#64 0#64) State.reset) (fun t => (t.x, t.d, t.ready)) =
    some (⟨0x9B8EA933#32, 0x81A889FB#32, 0x892B7B53#32, 0x6F502CAD#32, 0x948B1B37#32⟩, 0xFEB10C85#32, true) := by decide
/-- V-I7: the offset jump, and its Weyl advance. -/
theorem test_init_offset : got (exec (.init 0#64 0#64 1#64) State.reset) (fun t => (t.x, t.d)) =
    some (⟨0x455F2458#32, 0xF8A42704#32, 0xDCD8F87C#32, 0x511DB0D6#32, 0x92BD2E1C#32⟩, 0x2AC1D59A#32) := by
  decide +kernel
/-- V-J3. -/
theorem test_skip : got (exec (.skip 2#64) ready0) (fun t => (t.x, t.d, t.rsp)) =
    some (⟨0xF8A42704#32, 0xDCD8F87C#32, 0x511DB0D6#32, 0x92BD2E1C#32, 0x4576F80E#32⟩, 0x2AC75D5F#32, okData 0#64) := by
  decide +kernel
/-- V-F2. -/
theorem test_skip_notReady : got (exec (.skip 5#64) State.reset) (fun t => (t.rsp, t.ready)) =
    some (some ⟨.notReady, false, 0#64, 0#352⟩, false) := by decide
/-- V-B1. -/
theorem test_skipsub_zero : got (exec (.skipsub 0#64) ready0) (fun t => (t.x, t.d, t.rsp)) =
    some (x0, 0x2ABC4DD5#32, okData 0#64) := by decide
/-- P3 line 2: two units of the subsequence table. -/
theorem test_skipsub_trace : jumpTrace Config.default .sub 2#64 = [.mulvecT .sub 0, .mulvecT .sub 0] := by decide
/-- P6 line 2, the micro-operations of the squaring fallback. -/
theorem test_jump_trace_fallback :
    (jumpTrace { Config.default with N := 3 } .step 255#64).map (fun m => encode { Config.default with N := 3 } m.toInstr) =
      [0, 0, 0, 1, 1, 1, 2, 2, 2, 0x12, 0x18, 0x18, 0x08, 0x18, 0x08].map .microOp := by decide
/-- V-J11, `n = 64` with the linear fallback. -/
theorem test_jump_trace_linear :
    jumpTrace { Config.default with N := 3, fallback := .linear } .step 64#64 = List.replicate 4 (.mulvecT .step 2) := by
  decide
/-- V-C3. -/
theorem test_gcputf : got (exec (.gcputf 0x3F800000#32) ready0) (fun t => (t.gcF, t.gcD, t.rsp)) =
    some (some 0x3F800000#32, none, okData 0#64) := by decide
/-- V-C6: a stored zero answers with the flag. -/
theorem test_gcgetf_zero : got (exec .gcgetf { ready0 with gcF := some 0#32 }) (fun t => (t.gcF, t.rsp)) =
    some (some 0#32, some ⟨.ok, true, 0#64, 0#352⟩) := by decide
/-- V-C2. -/
theorem test_gcgetf_empty : got (exec .gcgetf ready0) (fun t => t.rsp) = some (okData 0#64) := by decide
/-- V-C5, a NaN pattern. -/
theorem test_gcputd : got (exec (.gcputd 0x7FF8000000000001#64) ready0) (fun t => (t.gcF, t.gcD)) =
    some (none, some 0x7FF8000000000001#64) := by decide
theorem test_gcgetd : got (exec .gcgetd { ready0 with gcD := some 0x7FF8000000000001#64 }) (fun t => t.rsp) =
    some (some ⟨.ok, true, 0x7FF8000000000001#64, 0#352⟩) := by decide
/-- V-C6. -/
theorem test_gcclrf : got (exec .gcclrf { ready0 with gcF := some 1#32, gcD := some 1#64 }) (fun t => (t.gcF, t.gcD)) =
    some (none, some 1#64) := by decide
theorem test_gcclrd : got (exec .gcclrd { ready0 with gcF := some 1#32, gcD := some 1#64 }) (fun t => (t.gcF, t.gcD)) =
    some (some 1#32, none) := by decide

/-- The image of V-C1 as the port's number. -/
def imageC1 : BitVec 352 :=
  0xBFF80000000000003F80000000000001000000012AE88BFD3DFBB448A9BDC1F8C5C40E765A6B1C62CB8EE0E0#352

/-- The image of V-I1: `D23E2158 58245F45 0427A4F8 7CF8D8DC D6B01D51 D54DBC2A` and zeros, byte 0 first. -/
def imageI1 : BitVec 352 := 0x2ABC4DD5511DB0D6DCD8F87CF8A42704455F245858213ED2#352

/-- The engine of V-C1 at its SAVE. -/
def engineC1 : State :=
  { engine ⟨0xCB8EE0E0#32, 0x5A6B1C62#32, 0xC5C40E76#32, 0xA9BDC1F8#32, 0x3DFBB448#32⟩ 0x2AE88BFD#32 with
    gcF := some 0x3F800000#32, gcD := some 0xBFF8000000000000#64 }

/-- V-C1. -/
theorem test_save : got (exec .save engineC1) (fun t => t.rsp) = some (some ⟨.ok, false, 0#64, imageC1⟩) := by
  decide +kernel
/-- R46: the first bytes of V-C1 in the buffer. -/
theorem test_save_bytes : got (exec .save engineC1) (fun t => [0, 1, 2, 3, 24, 43, 44].map t.img.read) =
    some [0xE0#8, 0xE0#8, 0x8E#8, 0xCB#8, 0x01#8, 0xBF#8, 0x00#8] := by decide +kernel
/-- P3 line 8. -/
theorem test_restore : got (exec .restore { State.reset with img := loadImg [] imageC1 })
      (fun t => (t.x, t.d, t.gcF, t.gcD, t.ready)) =
    some (engineC1.x, engineC1.d, engineC1.gcF, engineC1.gcD, true) := by decide +kernel
/-- V-F7: byte 24 set to 2. V-F6: the all-zero image. -/
theorem test_restore_badImage :
    got (exec .restore { State.reset with img := loadImg [] (imageI1 ^^^ (2#352 <<< 192)) }) (fun t => (t.rsp, t.ready)) =
      some (some ⟨.badImage, false, 0#64, 0#352⟩, false) ∧
    got (exec .restore State.reset) (fun t => t.rsp) = some (some ⟨.badImage, false, 0#64, 0#352⟩) := by decide +kernel
/-- V-M5b. -/
theorem test_mulvecT : got (exec (.mulvecT .step 0) (engine ⟨1#32, 0#32, 0#32, 0#32, 0x80000000#32⟩ 0#32)) (fun t => t.x) =
    some ⟨0#32, 0#32, 0#32, 0x80000000#32, 0x80000003#32⟩ := by decide +kernel
/-- V-M1, with `A` in the running matrix. -/
theorem test_mulvecA : got (exec .mulvecA { ready0 with ma := matrixOf stepA, maWritten := true }) (fun t => t.x) =
    some ⟨0x455F2458#32, 0xF8A42704#32, 0xDCD8F87C#32, 0x511DB0D6#32, 0x92BD2E1C#32⟩ := by decide +kernel
/-- R82, "a model should refuse it". -/
theorem test_mulvecA_unwritten : exec .mulvecA State.reset = .refused .scratchUnwritten := by rfl
/-- V-T1, rows 30, 128 and 155. -/
theorem test_loada : got (exec (.loada .step 0) State.reset)
      (fun t => [30, 128, 155].map fun r => ShiftReg.ofVec (t.ma.row r)) =
    some [⟨0#32, 0#32, 0#32, 0#32, 0xF0000000#32⟩, ⟨0#32, 0#32, 0#32, 1#32, 0x11#32⟩,
      ⟨0#32, 0#32, 0#32, 0x08000000#32, 0x88000000#32⟩] := by decide +kernel
/-- V-M6, rows 0 and 128. -/
theorem test_squarea : got (exec .squarea { State.reset with ma := matrixOf stepA, maWritten := true })
      (fun t => ([0, 128].map fun r => ShiftReg.ofVec (t.ma.row r), ShiftReg.ofVec (t.mb.row 0))) =
    some ([⟨0#32, 0#32, 0#32, 3#32, 0x33#32⟩, ⟨0#32, 0#32, 1#32, 0x11#32, 0x101#32⟩], ⟨0#32, 0#32, 0#32, 0#32, 3#32⟩) := by
  decide +kernel
/-- R96, "Exceptions: none": SQUAREA as the first instruction after reset. -/
theorem test_squarea_at_reset :
    got (step (State.reset.withFetchWord 8 0xC0)) (fun t => (t.ma.row 0, t.mb.row 0, t.uop)) =
      some (0#160, 0#160, none) := by decide +kernel
/-- V-F4, V-F5. -/
theorem test_reserved : [Instr.reserved0, .reservedD, .reservedE, .reservedF].map
      (fun i => got (exec i ready0) fun t => (t.rsp, t.x, t.ready)) =
    List.replicate 4 (some (some ⟨.illegalCommand, false, 0#64, 0#352⟩, x0, true)) := by decide
/-- R43, R46 and V-T1: word 4 of row 30 of `STEP[0]`, read from the ROM. -/
theorem test_rom : romRead Config.default (romAddr Config.default .step 0 30 4) = 0xF0000000#32 := by decide +kernel
/-- R43: where `SUB` starts. -/
theorem test_rom_sub : romAddr Config.default .sub 0 0 0 = 102400 := by decide

/-! ### Steps -/

/-- P4 line 1: a NEXT presented after reset. -/
theorem test_step_next_notReady :
    got (step (State.reset.withFetchWord 196 0x2000000000000000000000000000000000000000000000000))
      (fun t => (t.rsp, t.inputs)) = some (some ⟨.notReady, false, 0#64, 0#352⟩, []) := by decide
/-- V-F8: the image is sampled from the port. -/
theorem test_step_restore :
    got (step { State.reset with
        inputs := [.command 0xC000000000000000000000000000000000000000000000000#196 imageI1] }) (fun t => (t.x, t.ready)) =
      some (x0, true) := by decide +kernel
/-- R170: reset while a micro-operation and a command are in progress. -/
theorem test_step_reset :
    got (step { ready0 with task := some (.skip 5#64), uop := some 0x40, inputs := [.reset, .idle] })
      (fun t => (t.ready, t.busy, t.uop, t.inputs)) = some (false, false, none, [.idle]) := by decide
/-- R100: the line `FB_BIT` with bit 0 set and nothing left issues MULVEC.A and goes to `DONE`. -/
theorem test_step_fbBit :
    got (microStep { ready0 with task := some (.skip 64#64), sq := { Sequencer.reset with phase := .fbBit, v := 1#64 } })
      (fun t => (t.uop, t.sq.phase, t.sq.v)) = some (some 0x40, .done, 0#64) := by decide
/-- R100, R115: `DONE` completes a SKIP: the Weyl update and the response. -/
theorem test_step_done :
    got (microStep { ready0 with task := some (.skip 5#64), sq := { Sequencer.reset with phase := .done } })
      (fun t => (t.d, t.rsp, t.busy, t.sq.phase)) = some (0x2AD7F4AE#32, okData 0#64, false, .idle) := by decide
/-- R69, R72: an assembled line. -/
theorem test_assemble : assembleLine "INIT 0x0123_4567_89AB_CDEF, 5, 1000 ; a comment".toList =
    some [.command 0x10123456789ABCDEF000000000000000500000000000003E8#196 0#352] := by decide
theorem test_assemble_power : assembleLine "SKIPSUB 2^64-1".toList =
      some [.command 0x400000000000000000000000000000000FFFFFFFFFFFFFFFF#196 0#352] ∧
    assembleLine "NEXTN 2".toList =
      some (List.replicate 2 (.command 0x2000000000000000000000000000000000000000000000000#196 0#352)) ∧
    assembleLine "MUL 1".toList = none := by decide
/-- R69: text that is no number. -/
theorem test_assemble_no_number :
    ["2^-1", "_", "0x_", "0x", "2^", "", "1x"].map (fun n => readNumber n.toList) = List.replicate 7 none := by decide

/-! ### Witnesses: the hypotheses of the obligations are met -/

/-- An engine that is not ready, in the default build. -/
def cold : State := State.reset

/-- A build with the identity as its seed mixing and a table of depth 3. -/
def smallBuild : Config := { W := 2, N := 3, fallback := .squaring, seedMix := [] }

/-- The same with the linear fallback. -/
def linearBuild : Config := { smallBuild with fallback := .linear }

/-- A block of the small build with a SKIP in progress. -/
def busyAt (c : Config) (q : Sequencer) : State := { ready0 with build := c, task := some (.skip 255#64), sq := q }

/-- A sequencer in a phase, with a distance and an index. -/
def seqAt (p : Phase) (v : BitVec 64) (mi : Nat) : Sequencer := { Sequencer.reset with phase := p, v := v, mi := mi }

theorem witness_StepRunsDecodedInstruction :
    (∃ s : State, admitted s.build = true ∧ s.uop = none ∧ s.task = none ∧ s.inputs = .command 0#196 0#352 :: []) ∧
    ∃ s : State, admitted s.build = true ∧ s.uop = some 0x9F ∧ (∀ rest, s.inputs ≠ .reset :: rest) ∧
      decodeMicroOp s.build.N 0x9F = .ok (.loada .step 31) :=
  ⟨⟨{ cold with inputs := [.command 0#196 0#352] }, by decide, rfl, rfl, rfl⟩,
   ⟨{ cold with uop := some 0x9F, inputs := [.idle, .reset] }, by decide, rfl, by simp, by decide⟩⟩
theorem witness_MicroOperationMap : 31 < 2 ^ miw 32 ∧ 31 < 32 ∧ 3 < 2 ^ miw 3 ∧ ¬ 3 < 3 ∧ 2 ^ (miw 32 + 3) ≤ 256 := by
  decide
theorem witness_DecodeInvertsEncode : (Instr.mulvecT .sub 31).wf Config.default = true ∧
    (Instr.loada .step 0).wf Config.default = true ∧ Instr.next.wf Config.default = true := by decide
theorem witness_ready_and_notReady : ready0.ready = true ∧ cold.ready = false := by decide
theorem witness_NextAdvances : ready0.ready = true ∧ cold.ready = false := witness_ready_and_notReady
theorem witness_CacheReads : ready0.ready = true ∧ cold.ready = false := witness_ready_and_notReady
theorem witness_CacheWrites : ready0.ready = true ∧ cold.ready = false := witness_ready_and_notReady
theorem witness_CacheClears : ready0.ready = true ∧ cold.ready = false := witness_ready_and_notReady
theorem witness_InitConstructs : cold.build.ok = true ∧ (busyAt smallBuild (seqAt .idle 0#64 0)).build.ok = true := by
  decide
theorem witness_InitReadsNoPriorState : cold.build.ok = true ∧ ready0.build = cold.build := by decide
theorem witness_InitComposes : cold.build.ok = true := by decide
theorem witness_SkipAdvances : ready0.build.ok = true ∧ ready0.ready = true ∧ cold.build.ok = true ∧ cold.ready = false := by
  decide
theorem witness_SkipsubAdvances : ready0.build.ok = true ∧ ready0.ready = true ∧ cold.build.ok = true ∧
    cold.ready = false := by decide
theorem witness_SkipEqualsNexts : ready0.build.ok = true ∧ ready0.ready = true := by decide
theorem witness_SkipsubEqualsNexts : ready0.build.ok = true ∧ ready0.ready = true := by decide
theorem witness_CacheFilledOnlyByPutAndRestore :
    (∃ t, exec (.gcputf 1#32) ready0 = .next t ∧ ready0.gcF = none ∧ t.gcF ≠ none) ∧
    ∃ t, exec (.gcputd 1#64) ready0 = .next t ∧ ready0.gcD = none ∧ t.gcD ≠ none :=
  ⟨⟨_, rfl, rfl, Option.some_ne_none _⟩, ⟨_, rfl, rfl, Option.some_ne_none _⟩⟩
theorem witness_SaveWritesImage : Memory.wf ready0.img = true ∧ ready0.ready = true ∧ Memory.wf cold.img = true ∧
    cold.ready = false := by decide
/-- Each branch of RESTORE: flag words 0 and 1 are taken, 2 in either and an all-zero `x` are refused. -/
theorem witness_RestoreLoadsImage :
    imageBad (loadImg [] imageC1) = false ∧ imageBad (loadImg [] imageI1) = false ∧
    imageBad (loadImg [] (imageI1 ^^^ (2#352 <<< 192))) = true ∧
    imageBad (loadImg [] (imageI1 ^^^ (2#352 <<< 224))) = true ∧ imageBad (loadImg [] 0#352) = true := by decide +kernel
theorem witness_PresentedImageIsRestored :
    let s : State := { cold with inputs := [.command 0xC000000000000000000000000000000000000000000000001#196 imageI1] }
    admitted s.build = true ∧ Memory.wf s.img = true ∧ s.uop = none ∧ s.task = none ∧
      opField 0xC000000000000000000000000000000000000000000000001#196 = 0xC := by decide
theorem witness_SaveRestoreRoundTrip : ready0.ready = true ∧ ready0.x ≠ ShiftReg.zero ∧ Memory.wf ready0.img = true ∧
    Memory.wf cold.img = true := by decide
theorem witness_RestoreSaveRoundTrip : Memory.wf (loadImg [] imageI1) = true ∧ imageBad (loadImg [] imageI1) = false := by
  decide +kernel
theorem witness_MatrixLaws : 159 < 160 ∧ ∀ u v : Vec, id (u ^^^ v) = id u ^^^ id v := ⟨by decide, fun _ _ => rfl⟩
theorem witness_TableContents : 159 < 160 := by decide
theorem witness_RomAddressMap : 31 < Config.default.N ∧ 159 < 160 ∧ 4 < 5 := by decide
theorem witness_MulvecTApplies : 31 < cold.build.N := by decide
theorem witness_LoadaLoads : 31 < cold.build.N := by decide
theorem witness_MulvecAApplies :
    let s : State := { cold with ma := matrixOf (stepA^[64]), maWritten := true }
    s.maWritten = true ∧ s.ma = matrixOf (stepA^[64]) ∧ cold.maWritten = false := ⟨rfl, rfl, rfl⟩
theorem witness_SquareaSquares :
    let s : State := { cold with ma := matrixOf (stepA^[3]), maWritten := true }
    s.ma = matrixOf (stepA^[3]) := rfl
theorem witness_TableIndexRefused : cold.build.N ≤ 32 := by decide
theorem witness_JumpMeetsContract : cold.build.ok = true := by decide
theorem witness_TableParametersInvisible :
    (busyAt smallBuild Sequencer.reset).build.ok = true ∧ (busyAt linearBuild Sequencer.reset).build.ok = true ∧
    (busyAt linearBuild Sequencer.reset).x = (busyAt smallBuild Sequencer.reset).x := by decide
theorem witness_MicroOperationCounts : smallBuild.ok = true ∧ smallBuild.fallback = .squaring ∧ linearBuild.ok = true ∧
    linearBuild.fallback = .linear := by decide
/-- The common hypotheses of the sequencer's lines hold in every `busyAt`. -/
theorem witness_SequencerLines (q : Sequencer) :
    let s := busyAt smallBuild q
    admitted s.build = true ∧ s.uop = none ∧ s.task = some (.skip 255#64) ∧ holdsCommand s.inputs = true ∧ s.sq = q ∧
      s.build.fallback = .squaring ∧ (busyAt linearBuild q).build.fallback = .linear :=
  ⟨(by decide : admitted smallBuild = true), rfl, rfl, rfl, rfl, rfl, rfl⟩
/-- The condition of each line of the sequencer's table holds somewhere. -/
theorem witness_SequencerLines_conditions :
    (seqAt .idle 0#64 0).phase = .idle ∧
    ((seqAt .digit 0#64 3).phase = .digit ∧ (seqAt .digit 0#64 3).v = 0) ∧
    ((seqAt .digit 3#64 3).phase = .digit ∧ (seqAt .digit 3#64 3).v ≠ 0 ∧ (seqAt .digit 3#64 3).mi = smallBuild.N ∧
      (seqAt .digit 3#64 3).mi = linearBuild.N) ∧
    ((seqAt .digit 3#64 2).v ≠ 0 ∧ (seqAt .digit 3#64 2).mi < smallBuild.N) ∧
    (({ seqAt .apply 3#64 2 with rep := 1 } : Sequencer).phase = .apply ∧
      ({ seqAt .apply 3#64 2 with rep := 1 } : Sequencer).rep ≠ 0 ∧ (seqAt .apply 3#64 2).rep = 0) ∧
    (seqAt .fbLoad 3#64 3).phase = .fbLoad ∧
    (({ seqAt .fbAlign 3#64 3 with k := 2 } : Sequencer).phase = .fbAlign ∧
      ({ seqAt .fbAlign 3#64 3 with k := 2 } : Sequencer).k ≠ 0 ∧ (seqAt .fbAlign 3#64 3).k = 0) ∧
    ((seqAt .fbBit 1#64 3).v.getLsbD 0 = true ∧ (seqAt .fbBit 2#64 3).v.getLsbD 0 = false) ∧
    (seqAt .fbSq 1#64 3).phase = .fbSq ∧
    (({ seqAt .fbLin 0#64 3 with lin := 12#64 } : Sequencer).lin ≠ 0 ∧ (seqAt .fbLin 0#64 3).lin = 0) ∧
    (seqAt .done 0#64 3).phase = .done := by decide
theorem witness_SequencerIssuesAlgorithm :
    let s := busyAt smallBuild (seqAt .idle 0#64 0)
    admitted s.build = true ∧ s.uop = none ∧ s.task = some (.skip 255#64) ∧ s.sq.phase = .idle ∧
      holdsCommand s.inputs = true := by decide
theorem witness_MicroLevelRefinesCommandLevel :
    let s : State := { ready0 with inputs := [.command 0x30000000000000000000000000000000000000000000000FF#196 0#352] }
    admitted s.build = true ∧ s.uop = none ∧ s.task = none ∧ s.sq.phase = .idle ∧ holdsCommand [] = true := by decide
/-- In the middle of a squaring fallback, with MULVEC.A on the port. -/
theorem witness_SequencerNeverRefused :
    State.IssueInv { busyAt smallBuild (seqAt .fbSq 1#64 3) with
      ma := matrixOf (stepA^[0]), maWritten := true, uop := some 0x08 } where
  build := by decide
  port := by
    intro w hw
    cases hw
    exact ⟨.mulvecA, rfl, rfl⟩
  idle := by intro h; cases h
  phase := by intro _; exact .inl rfl
  index := by intro h; cases h
theorem witness_ReservedOpcodesIllegal : Instr.reservedE = .reserved0 ∨ Instr.reservedE = .reservedD ∨
    Instr.reservedE = .reservedE ∨ Instr.reservedE = .reservedF := by decide
theorem witness_NotReadyRaised : cold.ready = false ∧ Instr.next.isCommand = true ∧
    ∃ t r, exec .next cold = .next t ∧ t.rsp = some r ∧ r.status = .notReady :=
  ⟨rfl, rfl, _, _, rfl, rfl, rfl⟩
theorem witness_FaultsChangeNothing : Instr.reserved0.isCommand = true ∧
    ∃ t r, exec .reserved0 ready0 = .next t ∧ t.rsp = some r ∧ r.status ≠ .ok :=
  ⟨rfl, _, _, rfl, rfl, by decide⟩
theorem witness_EveryCommandAnswers : Instr.save.isCommand = true := by decide
/-- Both branches of the response table. -/
theorem witness_ResponseTable : (∃ t r, exec .gcgetf ready0 = .next t ∧ t.rsp = some r ∧ r.status = .ok) ∧
    ∃ t r, exec .gcgetf cold = .next t ∧ t.rsp = some r ∧ r.status ≠ .ok :=
  ⟨⟨_, _, rfl, rfl, rfl⟩, ⟨_, _, rfl, rfl, by decide⟩⟩
theorem witness_AccessMatrixWrites : (Instr.gcputf 1#32).isCommand = true ∧ ∃ t, exec (.gcputf 1#32) ready0 = .next t :=
  ⟨rfl, _, rfl⟩
theorem witness_ReadyOnlyByInitOrRestore :
    (∃ t, exec .gcclrf ready0 = .next t ∧ ready0.ready = true) ∧
    ∃ t, exec (.init 0#64 0#64 0#64) cold = .next t ∧ cold.ready = false ∧ t.ready = true :=
  ⟨⟨_, rfl, rfl⟩, ⟨_, rfl, rfl, rfl⟩⟩
theorem witness_ShiftRegisterAndWeylIndependent :
    (∃ t t', exec .next ready0 = .next t ∧ exec .next { ready0 with x := ShiftReg.zero } = .next t') ∧
    ∃ t t', exec .next ready0 = .next t ∧ exec .next { ready0 with d := 7#32 } = .next t' :=
  ⟨⟨_, _, rfl, rfl⟩, ⟨_, _, rfl, rfl⟩⟩
theorem witness_ConfigurationFixed : (∃ t, step cold = .next t) ∧ ∃ t, microStep cold = .next t := ⟨⟨_, rfl⟩, ⟨_, rfl⟩⟩
theorem witness_BusyHoldsCommand :
    let s : State := { busyAt smallBuild (seqAt .digit 0#64 0) with inputs := [.command 0#196 0#352] }
    s.busy = true ∧ s.inputs = .command 0#196 0#352 :: [] ∧ (∃ t, step s = .next t) ∧ ∃ t, microStep s = .next t :=
  ⟨rfl, rfl, ⟨_, rfl⟩, ⟨_, rfl⟩⟩
theorem witness_ResetLeavesNotReady :
    let s : State := { busyAt smallBuild (seqAt .apply 3#64 2) with uop := some 0, inputs := [.reset, .reset] }
    admitted s.build = true ∧ s.inputs = .reset :: [.reset] := by decide
/-- In the middle of a squaring fallback, with MULVEC.A on the port, and a step of each level from it. -/
theorem witness_NonZeroInvariantKept :
    let s : State := { busyAt smallBuild (seqAt .fbSq 1#64 3) with
      ma := matrixOf (stepA^[0]), maWritten := true, uop := some 0x08 }
    s.Inv ∧ s.IssueInv ∧ (∃ t, step s = .next t) ∧ ∃ t, microStep s = .next t :=
  ⟨{ build := by decide
     nonzero := fun _ => by decide
     scratch := fun _ => ⟨0, rfl⟩ }, witness_SequencerNeverRefused, ⟨_, rfl⟩, ⟨_, rfl⟩⟩
/-- `FB_LOAD` of a build with `W = 64`, the largest value of `sq.k`, and a step of each level from it. -/
theorem witness_SequencerRegistersFit :
    let s := busyAt { smallBuild with W := 64, N := 1 } (seqAt .fbLoad 1#64 1)
    s.SeqInv ∧ (∃ t, step s = .next t) ∧ (∃ t, microStep s = .next t) ∧
      got (microStep s) (fun t => t.sq.k) = some 64#7 :=
  ⟨{ build := by decide, fits := by decide, index := by intro h; cases h }, ⟨_, rfl⟩, ⟨_, rfl⟩, rfl⟩
/-- Both sides of the admission: a build with an empty mixing runs, one with `W = 65` is refused. -/
theorem witness_AdmittedBuildsExactly : (∃ t, step (busyAt smallBuild Sequencer.reset) = .next t) ∧
    step (busyAt { smallBuild with W := 65 } Sequencer.reset) = .refused .notABuild := ⟨⟨_, rfl⟩, rfl⟩
theorem witness_ImageSpaceCanonical :
    let s : State := { cold with img := [(0, 1#8), (43, 2#8)] }
    Memory.wf s.img = true ∧ (∃ t, step s = .next t) ∧ ∃ t, microStep s = .next t := ⟨by decide, ⟨_, rfl⟩, ⟨_, rfl⟩⟩
/-- The canonical form refuses an entry for zero, an entry out of order and an entry outside the 44 bytes. -/
theorem test_memory_wf_refuses : Memory.wf [(0, 0#8)] = false ∧ Memory.wf [(1, 1#8), (0, 1#8)] = false ∧
    Memory.wf [(44, 1#8)] = false := by decide
theorem witness_InstancesIndependent :
    ∃ a b, (0 : Nat) ≠ 1 ∧ stepInstance 0 [cold, ready0] = .next a ∧ stepInstance 1 [cold, ready0] = .next b :=
  ⟨_, _, by decide, rfl, rfl⟩

end Sys2Proof.Tests
end

section
/-! PROOFS. The linear algebra over GF(2) behind the jump tables: the one-step operator `A` is linear (R13), the matrix of a
linear map applies that map (R80, R84), and the matrix that repeated squaring builds is the matrix of a power of `A` (R44). -/

namespace Sys2Proof.Machine

/-! ### Linear maps on the vector view -/

/-- A map on vectors that respects exclusive or: linear over GF(2) (R13, R84). -/
def XorLinear (f : Vec → Vec) : Prop := ∀ u v, f (u ^^^ v) = f u ^^^ f v

theorem XorLinear.map_zero {f : Vec → Vec} (hf : XorLinear f) : f 0#160 = 0#160 := by
  have h : f (0#160 ^^^ 0#160) = 0#160 := by rw [hf, BitVec.xor_self]
  rwa [BitVec.xor_self] at h

theorem XorLinear.iterate {f : Vec → Vec} (hf : XorLinear f) (n : Nat) : XorLinear (f^[n]) := by
  induction n with
  | zero => exact fun _ _ => rfl
  | succ n ih =>
    intro u v
    rw [Function.iterate_succ_apply', Function.iterate_succ_apply', Function.iterate_succ_apply', ih, hf]

/-- Exclusive or word by word, which is exclusive or of the vector views (`ShiftReg.toVec_xor`). -/
def ShiftReg.xor (x y : ShiftReg) : ShiftReg :=
  ⟨x.x0 ^^^ y.x0, x.x1 ^^^ y.x1, x.x2 ^^^ y.x2, x.x3 ^^^ y.x3, x.x4 ^^^ y.x4⟩

theorem ShiftReg.ofVec_xor (u v : Vec) :
    ShiftReg.ofVec (u ^^^ v) = (ShiftReg.ofVec u).xor (ShiftReg.ofVec v) := by
  simp only [ShiftReg.ofVec, ShiftReg.xor, BitVec.extractLsb'_xor]

theorem ShiftReg.toVec_xor (x y : ShiftReg) : (x.xor y).toVec = x.toVec ^^^ y.toVec := by
  rw [← ShiftReg.toVec_ofVec (x.toVec ^^^ y.toVec), ShiftReg.ofVec_xor, ShiftReg.ofVec_toVec, ShiftReg.ofVec_toVec]

theorem xor_interchange {n : Nat} (a b c d : BitVec n) : (a ^^^ b) ^^^ (c ^^^ d) = (a ^^^ c) ^^^ (b ^^^ d) := by
  ac_rfl

/-- The right shift of `A`'s first word is linear (R13). -/
theorem xorShiftRight_xor {n : Nat} (a b : BitVec n) (k : Nat) :
    (a ^^^ b) ^^^ ((a ^^^ b) >>> k) = (a ^^^ (a >>> k)) ^^^ (b ^^^ (b >>> k)) := by
  rw [BitVec.ushiftRight_xor_distrib, xor_interchange]

/-- The two left shifts of `A` are linear (R13). -/
theorem xorShiftLeft_xor {n : Nat} (a b : BitVec n) (k : Nat) :
    (a ^^^ b) ^^^ ((a ^^^ b) <<< k) = (a ^^^ (a <<< k)) ^^^ (b ^^^ (b <<< k)) := by
  rw [BitVec.shiftLeft_xor_distrib, xor_interchange]

/-- `A` on the five words renames four words and makes the fifth of xorshifts only (R13). -/
theorem ShiftReg.advance_xor (x y : ShiftReg) : (x.xor y).advance = x.advance.xor y.advance := by
  simp only [ShiftReg.advance, ShiftReg.xor, ShiftReg.mk.injEq, true_and]
  rw [xorShiftRight_xor, xorShiftLeft_xor, xorShiftLeft_xor, xor_interchange]

/-- `A` is linear (R13). -/
theorem stepA_xorLinear : XorLinear stepA := fun u v => by
  rw [stepA, ShiftReg.ofVec_xor, ShiftReg.advance_xor, ShiftReg.toVec_xor, stepA, stepA]

theorem stepA_iterate_xorLinear (n : Nat) : XorLinear (stepA^[n]) := stepA_xorLinear.iterate n

/-! ### The matrix of a map -/

/-- Row `r` of the matrix of a map is the image of `e_r` (R42). -/
theorem matrixOf_row (f : Vec → Vec) {r : Nat} (hr : r < 160) : (matrixOf f).row r = f (unitVec r) := by
  simp [JumpMatrix.row, matrixOf, hr]

theorem unitVec_getLsbD (r c : Nat) : (unitVec r).getLsbD c = (decide (r < 160) && decide (r = c)) := by
  rw [unitVec, ← BitVec.twoPow_eq, BitVec.getLsbD_twoPow]

/-- A linear map may be taken out of the product's loop: applied to every row, it is applied to the product. -/
theorem mulVecFrom_map {f : Vec → Vec} (hf : XorLinear f) (v : Vec) (r : Nat) (m : JumpMatrix) :
    mulVecFrom v r (m.map f) 0#160 = f (mulVecFrom v r m 0#160) := by
  induction m generalizing r with
  | nil => exact hf.map_zero.symm
  | cons row m ih =>
    rw [List.map_cons, mulVecFrom_cons, mulVecFrom_cons, hf, ih]
    split
    · rfl
    · rw [hf.map_zero]

/-- The product with the unit vectors `e_s`, `e_(s+1)`, … as rows keeps the bits of `v` that those rows stand for. -/
theorem mulVecFrom_unitVecs_getLsbD (v : Vec) (s n c : Nat) :
    (mulVecFrom v s ((List.range' s n).map unitVec) 0#160).getLsbD c =
      (decide (s ≤ c ∧ c < s + n) && v.getLsbD c) := by
  induction n generalizing s with
  | zero =>
    have h : ¬ (s ≤ c ∧ c < s + 0) := by omega
    rw [decide_eq_false h, Bool.false_and]
    exact BitVec.getLsbD_zero
  | succ n ih =>
    rw [List.range'_succ, List.map_cons, mulVecFrom_cons, BitVec.getLsbD_xor, ih]
    by_cases hsc : s = c
    · subst hsc
      have hhead : (if v.getLsbD s then unitVec s else 0#160).getLsbD s = v.getLsbD s := by
        by_cases hv : v.getLsbD s = true
        · rw [if_pos hv, unitVec_getLsbD, hv, decide_eq_true (BitVec.lt_of_getLsbD hv), decide_eq_true rfl]; rfl
        · simp [hv]
      have htail : ¬ (s + 1 ≤ s ∧ s < s + 1 + n) := by omega
      have hall : s ≤ s ∧ s < s + (n + 1) := by omega
      rw [hhead, decide_eq_false htail, decide_eq_true hall, Bool.false_and, Bool.true_and, Bool.xor_false]
    · have hhead : (if v.getLsbD s then unitVec s else 0#160).getLsbD c = false := by
        split <;> simp [hsc, unitVec_getLsbD]
      have htail : (s + 1 ≤ c ∧ c < s + 1 + n) ↔ (s ≤ c ∧ c < s + (n + 1)) := by omega
      rw [hhead, Bool.false_xor, decide_eq_decide.2 htail]

/-- The identity matrix applies the identity (R84). -/
theorem mulVec_matrixOf_id (v : Vec) : mulVec (matrixOf id) v = v := by
  refine BitVec.eq_of_getLsbD_eq fun c hc => ?_
  have hrange : 0 ≤ c ∧ c < 0 + 160 := by omega
  calc (mulVec (matrixOf id) v).getLsbD c
      = (mulVecFrom v 0 ((List.range' 0 160).map unitVec) 0#160).getLsbD c := by
        rw [← List.range_eq_range']; rfl
    _ = v.getLsbD c := by rw [mulVecFrom_unitVecs_getLsbD, decide_eq_true hrange, Bool.true_and]

/-- The matrix of a linear map applies that map (R84). -/
theorem mulVec_matrixOf {f : Vec → Vec} (hf : XorLinear f) (v : Vec) : mulVec (matrixOf f) v = f v := by
  have hrows : matrixOf f = (matrixOf id).map f := by simp [matrixOf]
  calc mulVec (matrixOf f) v = f (mulVec (matrixOf id) v) := by
        rw [hrows]
        exact mulVecFrom_map hf v 0 (matrixOf id)
    _ = f v := by rw [mulVec_matrixOf_id]

/-- The matrix product is composition, its first factor applied first (R83, R84). -/
theorem mulMat_matrixOf (f : Vec → Vec) {g : Vec → Vec} (hg : XorLinear g) :
    mulMat (matrixOf f) (matrixOf g) = matrixOf (g ∘ f) := by
  have hmul : mulVec (matrixOf g) = g := funext (mulVec_matrixOf hg)
  rw [mulMat, hmul, matrixOf, List.map_map]
  rfl

/-- Exponents add in a product of powers of `A` (R84). -/
theorem mulMat_matrixOf_stepA_iterate (p q : Nat) :
    mulMat (matrixOf (stepA^[p])) (matrixOf (stepA^[q])) = matrixOf (stepA^[p + q]) := by
  rw [mulMat_matrixOf _ (stepA_iterate_xorLinear q), ← Function.iterate_add, Nat.add_comm]

/-! ### The contents of the tables -/

/-- Squaring the matrix of `A` `k` times gives the matrix of `A^(2^k)` (R44). -/
theorem powTwo_eq_matrixOf (k : Nat) : powTwo k = matrixOf (stepA^[2 ^ k]) := by
  induction k with
  | zero => rfl
  | succ k ih => rw [powTwo, squareMat, ih, mulMat_matrixOf_stepA_iterate, ← Nat.two_mul, pow_succ']

/-- A table entry is the matrix of its power of `A` (R44, R90). -/
theorem table_eq_matrixOf (c : Config) (t : TableSel) (mi : Nat) :
    table c t mi = matrixOf (stepA^[2 ^ (c.W * mi) * unit t]) := by
  rw [table, powTwo_eq_matrixOf, pow_add, unit]

@[simp] theorem table_length (c : Config) (t : TableSel) (mi : Nat) : (table c t mi).length = 160 :=
  powTwo_length _

theorem table_row (c : Config) (t : TableSel) (mi : Nat) {r : Nat} (hr : r < 160) :
    (table c t mi).row r = stepA^[2 ^ (c.W * mi) * unit t] (unitVec r) := by
  rw [table_eq_matrixOf, matrixOf_row _ hr]

/-- Settles O29: a table entry is the matrix of its power of `A`, and the units of the two tables are `2^0` and `2^67`. -/
theorem tableContents : Obligations.TableContents := by
  intro c mi r hr
  have hstep : 2 ^ (c.W * mi) * unit .step = 2 ^ (c.W * mi) := Nat.mul_one _
  have hsub : unit .sub = 2 ^ 67 := rfl
  refine ⟨table_length .., table_length .., ?_, ?_⟩
  · rw [table_row c .step mi hr, hstep]
  · rw [table_row c .sub mi hr, hsub]

end Sys2Proof.Machine
end

section
/-! PROOFS. The ROM's address map (R43): the byte at a word's address and an offset below 4 is that byte of the word, so the
aligned read there is the word (R46, R47). -/

namespace Sys2Proof.Machine

/-- A little-endian read of a value's bytes in order is the value (R46). -/
theorem memRead_eq_of_bytes (rd : Nat → Byte) (a n : Nat) (v : BitVec (8 * n))
    (h : ∀ b < n, rd (a + b) = v.extractLsb' (8 * b) 8) : memRead rd a n = v := by
  refine BitVec.eq_of_getLsbD_eq fun i hi => ?_
  have hmod : i % 8 < 8 := Nat.mod_lt i (by decide)
  rw [memRead_getLsbD, h (i / 8) (by omega), BitVec.getLsbD_extractLsb', Nat.div_add_mod]
  simp [hi, hmod]

/-- A `tsel` bit selects the table it was made from (R67). -/
@[simp] theorem tselOf_tselBit (t : TableSel) : tselOf (tselBit t) = t := by cases t <;> rfl

/-- The matrices of both tables are numbered from 0 below `2*N`, those of `SUB` after those of `STEP` (R43). -/
theorem tableIndex_lt (c : Config) (t : TableSel) {mi : Nat} (hmi : mi < c.N) : tselBit t * c.N + mi < 2 * c.N := by
  cases t <;> simp only [tselBit] <;> omega

/-- Every byte of a word lies inside the ROM (R40, R43). -/
theorem romAddr_add_lt (c : Config) (t : TableSel) {mi r k b : Nat} (hmi : mi < c.N) (hr : r < 160) (hk : k < 5)
    (hb : b < 4) : romAddr c t mi r k + b < romSize c := by
  have hidx := tableIndex_lt c t hmi
  simp only [romAddr, romSize]
  omega

/-- The byte at a word's address and an offset below 4 is that byte of the word (R43, R46). -/
theorem romByte_romAddr (c : Config) (t : TableSel) {mi r k b : Nat} (hmi : mi < c.N) (hr : r < 160) (hk : k < 5)
    (hb : b < 4) :
    romByte c (romAddr c t mi r k + b) = (rowWord ((table c t mi).row r) k).extractLsb' (8 * b) 8 := by
  have hword : (romAddr c t mi r k + b) / 4 = ((tselBit t * c.N + mi) * 160 + r) * 5 + k := by
    unfold romAddr; omega
  have hbyte : (romAddr c t mi r k + b) % 4 = b := by unfold romAddr; omega
  have hmatrix : (((tselBit t * c.N + mi) * 160 + r) * 5 + k) / 800 = tselBit t * c.N + mi := by omega
  have hrow : (((tselBit t * c.N + mi) * 160 + r) * 5 + k) / 5 % 160 = r := by omega
  have hcol : (((tselBit t * c.N + mi) * 160 + r) * 5 + k) % 5 = k := by omega
  have hsel : (tselBit t * c.N + mi) / c.N = tselBit t := by
    rw [Nat.mul_comm, Nat.mul_add_div (by omega), Nat.div_eq_of_lt hmi, Nat.add_zero]
  have hmi' : (tselBit t * c.N + mi) % c.N = mi := by rw [Nat.mul_add_mod_self_right, Nat.mod_eq_of_lt hmi]
  simp only [romByte, romAddr_add_lt c t hmi hr hk hb, if_true, hword, hbyte, hmatrix, hrow, hcol, hsel, hmi',
    tselOf_tselBit]

/-- The read at a word's address is the word (R43, R47). -/
theorem romRead_romAddr (c : Config) (t : TableSel) {mi r k : Nat} (hmi : mi < c.N) (hr : r < 160) (hk : k < 5) :
    romRead c (romAddr c t mi r k) = rowWord ((table c t mi).row r) k :=
  memRead_eq_of_bytes (romByte c) _ 4 _ fun _ hb => romByte_romAddr c t hmi hr hk hb

/-- Settles O30: the read is the word, and the address is a multiple of 4 in its table's half. -/
theorem romAddressMap : Obligations.RomAddressMap := by
  intro c t mi r k hmi hr hk
  have hlast : romAddr c t mi r k + 3 < 2 * c.N * 3200 := romAddr_add_lt c t hmi hr hk (by decide)
  refine ⟨rfl, romRead_romAddr c t hmi hr hk, Nat.mul_mod_right 4 _, hlast, ?_, ?_⟩
  · rintro rfl
    simp only [romAddr, tselBit]
    omega
  · rintro rfl
    simp only [romAddr, tselBit]
    omega

end Sys2Proof.Machine
end

section
/-! PROOFS. The command word is its four fields (R61), so the decoder reads the opcode and the operands that were put in. -/

namespace Sys2Proof

@[simp] theorem opField_commandWord (op : BitVec 4) (a b c : Operand) : opField (commandWord op a b c) = op :=
  calc opField (commandWord op a b c)
    _ = (op ++ a ++ b).extractLsb' 128 4 := BitVec.extractLsb'_append_eq_of_le (by decide)
    _ = (op ++ a).extractLsb' 64 4 := BitVec.extractLsb'_append_eq_of_le (by decide)
    _ = op.extractLsb' 0 4 := BitVec.extractLsb'_append_eq_of_le (by decide)
    _ = op := BitVec.extractLsb'_eq_self

@[simp] theorem aField_commandWord (op : BitVec 4) (a b c : Operand) : aField (commandWord op a b c) = a :=
  calc aField (commandWord op a b c)
    _ = (op ++ a ++ b).extractLsb' 64 64 := BitVec.extractLsb'_append_eq_of_le (by decide)
    _ = (op ++ a).extractLsb' 0 64 := BitVec.extractLsb'_append_eq_of_le (by decide)
    _ = a.extractLsb' 0 64 := BitVec.extractLsb'_append_eq_of_add_le (by decide)
    _ = a := BitVec.extractLsb'_eq_self

@[simp] theorem bField_commandWord (op : BitVec 4) (a b c : Operand) : bField (commandWord op a b c) = b :=
  calc bField (commandWord op a b c)
    _ = (op ++ a ++ b).extractLsb' 0 64 := BitVec.extractLsb'_append_eq_of_le (by decide)
    _ = b.extractLsb' 0 64 := BitVec.extractLsb'_append_eq_of_add_le (by decide)
    _ = b := BitVec.extractLsb'_eq_self

@[simp] theorem cField_commandWord (op : BitVec 4) (a b c : Operand) : cField (commandWord op a b c) = c :=
  calc cField (commandWord op a b c)
    _ = c.extractLsb' 0 64 := BitVec.extractLsb'_append_eq_of_add_le (by decide)
    _ = c := BitVec.extractLsb'_eq_self

/-- Settles O3: with the four fields read back, each opcode selects its line of the decoder. -/
theorem opcodeMap : Obligations.OpcodeMap := by
  intro a b c
  simp only [decodeCommand, opField_commandWord, aField_commandWord, bField_commandWord, cField_commandWord]
  exact ⟨rfl, rfl, rfl, rfl, rfl, rfl, rfl, rfl, rfl, rfl, rfl, rfl, rfl, rfl, rfl, rfl⟩

end Sys2Proof
end

section
/-! PROOFS. What every command answers: a fault that changes nothing else, or the response of its row in the table of R64. -/

namespace Sys2Proof.Machine

/-- The commands that need a ready engine (R152): all but INIT, RESTORE and the reserved opcodes. -/
def needsReady : Instr → Bool
  | .next | .skip _ | .skipsub _ | .gcgetf | .gcgetd | .gcputf _ | .gcputd _ | .gcclrf | .gcclrd | .save => true
  | _ => false

/-- A command that needs a ready engine answers NotReady from one that is not (R152). -/
theorem exec_notReady {i : Instr} {s : State} (hi : needsReady i = true) (h : s.ready = false) :
    exec i s = .next (s.raise .notReady) := by
  cases i with
  | next => exact exec_next_notReady h
  | skip n => exact exec_skip_notReady n h
  | skipsub n => exact exec_skipsub_notReady n h
  | gcgetf => exact exec_gcgetf_notReady h
  | gcgetd => exact exec_gcgetd_notReady h
  | gcputf b => exact exec_gcputf_notReady b h
  | gcputd b => exact exec_gcputd_notReady b h
  | gcclrf => exact exec_gcclrf_notReady h
  | gcclrd => exact exec_gcclrd_notReady h
  | save => exact exec_save_notReady h
  | _ => cases hi

/-- The response of a command that answers OK, from the states before and after it (R64). -/
def okResponse (i : Instr) (s t : State) : Response :=
  match i with
  | .next => ⟨.ok, false, zext64 (outputWord t.x t.d), 0#352⟩
  | .gcgetf => ⟨.ok, s.gcFValid, zext64 (gcFField s.gcF), 0#352⟩
  | .gcgetd => ⟨.ok, s.gcDValid, gcDField s.gcD, 0#352⟩
  | .save => ⟨.ok, false, 0#64, imgPort t.img⟩
  | _ => ⟨.ok, false, 0#64, 0#352⟩

@[simp] theorem okResponse_status (i : Instr) (s t : State) : (okResponse i s t).status = .ok := by
  cases i <;> rfl

/-- Every command has a next state: it raises a fault, or it answers as its row of R64's table says. -/
theorem exec_raises_or_answersOk {i : Instr} (s : State) (hi : i.isCommand = true) :
    ∃ t, exec i s = .next t ∧ ((∃ f, f ≠ .ok ∧ t = s.raise f) ∨ t.rsp = some (okResponse i s t)) := by
  by_cases hfault : needsReady i = true ∧ s.ready = false
  · obtain ⟨hn, hr⟩ := hfault
    exact ⟨_, exec_notReady hn hr, .inl ⟨.notReady, by decide, rfl⟩⟩
  have hready : needsReady i = true → s.ready = true := by
    intro hn
    simpa [hn] using hfault
  cases i with
  | init a b c => exact ⟨_, exec_init a b c, .inr (State.finishInit_rsp ..)⟩
  | next => exact ⟨_, exec_next (hready rfl), .inr rfl⟩
  | skip n => exact ⟨_, exec_skip n (hready rfl), .inr (State.finishSkip_rsp ..)⟩
  | skipsub n => exact ⟨_, exec_skipsub n (hready rfl), .inr (State.finishSkipsub_rsp ..)⟩
  | gcgetf => exact ⟨_, exec_gcgetf (hready rfl), .inr rfl⟩
  | gcgetd => exact ⟨_, exec_gcgetd (hready rfl), .inr rfl⟩
  | gcputf b => exact ⟨_, exec_gcputf b (hready rfl), .inr rfl⟩
  | gcputd b => exact ⟨_, exec_gcputd b (hready rfl), .inr rfl⟩
  | gcclrf => exact ⟨_, exec_gcclrf (hready rfl), .inr rfl⟩
  | gcclrd => exact ⟨_, exec_gcclrd (hready rfl), .inr rfl⟩
  | save =>
    refine ⟨_, exec_save (hready rfl), .inr ?_⟩
    simp only [State.answer_rsp, State.answer_img, okResponse]
  | restore =>
    cases himg : imageBad s.img with
    | true => exact ⟨_, exec_restore_bad himg, .inl ⟨.badImage, by decide, rfl⟩⟩
    | false => exact ⟨_, exec_restore_good himg, .inr rfl⟩
  | reserved0 | reservedD | reservedE | reservedF =>
    exact ⟨_, rfl, .inl ⟨.illegalCommand, by decide, rfl⟩⟩
  | mulvecT | mulvecA | loada | squarea => cases hi

/-- Settles O47: a fault answers zeros, and an OK answer is its row of the table. -/
theorem responseTable : Obligations.ResponseTable := by
  intro i s t r hi ht hr
  obtain ⟨u, hu, hcase⟩ := exec_raises_or_answersOk s hi
  cases hu.symm.trans ht
  rcases hcase with ⟨f, hf, rfl⟩ | hok
  · cases hr
    rw [if_neg hf]
    exact ⟨rfl, rfl, rfl⟩
  · cases hok.symm.trans hr
    rw [if_pos (okResponse_status i s t)]
    cases i <;> rfl

end Sys2Proof.Machine
end

section
/-! PROOFS. The matrix product lane by lane (R80): one row adds its selected bit to the lane's parity, a row that the matrix
does not store counts as zero, and a row past bit 159 of the vector is never selected. -/

namespace Sys2Proof.Machine

@[simp] theorem JumpMatrix.row_nil (r : Nat) : JumpMatrix.row [] r = 0#160 := rfl

@[simp] theorem JumpMatrix.row_tail (m : JumpMatrix) (r : Nat) : JumpMatrix.row m.tail r = m.row (r + 1) := by
  cases m <;> rfl

/-- One row of the product, for a matrix that may have no row left: a row that is not stored adds nothing (R80). -/
theorem mulVecFrom_eq_row_xor_tail (v : Vec) (r : Nat) (m : JumpMatrix) :
    mulVecFrom v r m 0#160 = (if v.getLsbD r then m.row 0 else 0#160) ^^^ mulVecFrom v (r + 1) m.tail 0#160 := by
  cases m with
  | nil => simp [mulVecFrom]
  | cons row m => exact mulVecFrom_cons v r row m

/-- The rows past bit 159 of the vector are not selected. -/
theorem mulVecFrom_eq_zero_of_le (v : Vec) {r : Nat} (hr : 160 ≤ r) (m : JumpMatrix) :
    mulVecFrom v r m 0#160 = 0#160 := by
  induction m generalizing r with
  | nil => rfl
  | cons row m ih =>
    have hbit : v.getLsbD r = false := BitVec.getLsbD_of_ge v r hr
    simp [mulVecFrom_cons, hbit, ih (Nat.le_succ_of_le hr)]

/-- One more bit in front flips a parity exactly when it is set. -/
theorem decide_odd_add_toNat (n : Nat) (b : Bool) :
    decide ((n + b.toNat) % 2 = 1) = (b ^^ decide (n % 2 = 1)) := by
  cases b with
  | false => simp
  | true =>
    have hflip : (n + 1) % 2 = 1 ↔ ¬ n % 2 = 1 := by omega
    rw [Bool.toNat_true, decide_eq_decide.2 hflip, decide_not, Bool.true_xor]

/-- The parity of a count from 0 on: the answer at 0, exclusive-ored with the parity of the count at the successors. -/
theorem decide_odd_countP_range_succ (p : Nat → Bool) (n : Nat) :
    decide ((List.range (n + 1)).countP p % 2 = 1) =
      (p 0 ^^ decide ((List.range n).countP (fun k => p (k + 1)) % 2 = 1)) := by
  have hhead : (if p 0 = true then 1 else 0) = (p 0).toNat := by cases p 0 <;> rfl
  rw [List.range_succ_eq_map, List.countP_cons, List.countP_map, hhead, decide_odd_add_toNat]
  rfl

/-- The loop of the product from row `r` on, lane by lane: a count over any number of rows that reaches row 159 (R80). -/
theorem mulVecFrom_getLsbD (v : Vec) (c n r : Nat) (hn : 160 ≤ r + n) (m : JumpMatrix) :
    (mulVecFrom v r m 0#160).getLsbD c =
      decide ((List.range n).countP (fun k => v.getLsbD (r + k) && (m.row k).getLsbD c) % 2 = 1) := by
  induction n generalizing r m with
  | zero =>
    rw [mulVecFrom_eq_zero_of_le v (r := r) hn]
    exact BitVec.getLsbD_zero
  | succ n ih =>
    have hrow : (if v.getLsbD r then m.row 0 else 0#160).getLsbD c = (v.getLsbD r && (m.row 0).getLsbD c) := by
      cases v.getLsbD r <;> simp
    rw [mulVecFrom_eq_row_xor_tail, BitVec.getLsbD_xor, hrow, ih (r + 1) (by omega), decide_odd_countP_range_succ]
    simp [Nat.add_assoc, Nat.add_comm 1]

/-- Settles O27: the loop of the product from row 0, counted over the 160 rows. -/
theorem mulVecLanes : Obligations.MulVecLanes := fun m v c => by
  simpa [mulVec] using mulVecFrom_getLsbD v c 160 0 (by omega) m

end Sys2Proof.Machine
end

section
/-! PROOFS. NEXT (R110): the law of the command on a ready engine and on one that is not, and its shift-register half as the
one-step operator on the vector view (R13). -/

namespace Sys2Proof.Machine

/-- Settles O6: the two laws of NEXT with `ShiftReg.advance`, `outputWord` and the response written out, and `A` on the vector
view of the old words. -/
theorem nextAdvances : Obligations.NextAdvances := by
  intro s t y d nx
  have hadvance : s.x.advance = nx := rfl
  refine ⟨fun hready => ?_, fun hready => ?_, ?_⟩
  · exact exec_next hready
  · exact exec_next_notReady hready
  · rw [stepA_toVec, hadvance]

end Sys2Proof.Machine
end

section
/-! PROOFS. The Gaussian-cache accessors (R130 to R135): the law of each command with its response written out. -/

namespace Sys2Proof.Machine

/-- Settles O18: a filled slot answers its bits, an empty one zeros. -/
theorem cacheReads : Obligations.CacheReads := by
  refine fun s => ⟨fun hready => ⟨?_, ?_⟩, fun hready => ⟨exec_gcgetf_notReady hready, exec_gcgetd_notReady hready⟩⟩
  · refine (exec_gcgetf hready).trans (congrArg (fun r => Host.Outcome.next (s.answer r)) ?_)
    rw [State.gcFValid]
    cases s.gcF <;> rfl
  · refine (exec_gcgetd hready).trans (congrArg (fun r => Host.Outcome.next (s.answer r)) ?_)
    rw [State.gcDValid]
    cases s.gcD <;> rfl

/-- Settles O19: the laws of the two writes with the response written out. -/
theorem cacheWrites : Obligations.CacheWrites := fun _ f g =>
  ⟨fun hready => ⟨exec_gcputf f hready, exec_gcputd g hready⟩,
    fun hready => ⟨exec_gcputf_notReady f hready, exec_gcputd_notReady g hready⟩⟩

/-- Settles O20: the laws of the two clears with the response written out. -/
theorem cacheClears : Obligations.CacheClears := fun _ =>
  ⟨fun hready => ⟨exec_gcclrf hready, exec_gcclrd hready⟩,
    fun hready => ⟨exec_gcclrf_notReady hready, exec_gcclrd_notReady hready⟩⟩

end Sys2Proof.Machine
end

section
/-! PROOFS. The buffer and the port value (R45, R46): a field of the port value is the little-endian read at its offset, a
loaded port value is read back whole, and two adjacent little-endian writes are one write of the concatenation. -/

namespace Sys2Proof.Machine

theorem imgPort_getLsbD (m : Memory) (i : Nat) :
    (imgPort m).getLsbD i = (decide (i < 352) && (m.read (i / 8)).getLsbD (i % 8)) := by
  have h := memRead_getLsbD m.read 0 imgSize i
  rwa [Nat.zero_add] at h

/-- A field of the port value is the little-endian read at its offset (R45, R46). -/
theorem imgPort_extractLsb' (m : Memory) {a n : Nat} (h : a + n ≤ imgSize) :
    (imgPort m).extractLsb' (8 * a) (8 * n) = imgRead m a n := by
  refine BitVec.eq_of_getLsbD_eq fun i hi => ?_
  have hlt : 8 * a + i < 352 := by unfold imgSize at h; omega
  have hdiv : (8 * a + i) / 8 = a + i / 8 := by omega
  have hmod : (8 * a + i) % 8 = i % 8 := by omega
  rw [BitVec.getLsbD_extractLsb', imgPort_getLsbD, imgRead, memRead_getLsbD, hdiv, hmod, decide_eq_true hlt,
    Bool.true_and]

/-- A byte of the buffer is the one-byte field of the port value at its offset (R45). -/
theorem read_eq_imgPort_extractLsb' (m : Memory) {a : Nat} (h : a < imgSize) :
    m.read a = (imgPort m).extractLsb' (8 * a) 8 :=
  ((imgPort_extractLsb' m (n := 1) h).trans (BitVec.zero_width_append _ _)).symm

/-- A port value loaded into the buffer is the buffer's port value (R45). -/
theorem imgPort_loadImg {m : Memory} (hwf : Memory.wf m = true) (v : BitVec 352) : imgPort (loadImg m v) = v :=
  memRead_eq_of_bytes _ 0 imgSize v fun b hb => by
    rw [loadImg, memWrite_read m 0 v imgSize (0 + b) (by omega) hwf, if_pos (by omega), Nat.zero_add, Nat.sub_zero]
    rfl

/-- Loading the buffer changes no byte past it. -/
theorem loadImg_read_outside {m : Memory} (hwf : Memory.wf m = true) (v : BitVec 352) {a : Nat} (ha : imgSize ≤ a) :
    (loadImg m v).read a = m.read a := by
  rw [loadImg, memWrite_read m 0 v imgSize a (by omega) hwf, if_neg (by omega)]

/-- A little-endian write depends on the bytes it writes only. -/
theorem memWrite_congr (m : Memory) (a : Nat) {p q : Nat} {v : BitVec p} {w : BitVec q} (n : Nat)
    (h : ∀ b < n, v.extractLsb' (8 * b) 8 = w.extractLsb' (8 * b) 8) : memWrite m a v n = memWrite m a w n := by
  induction n with
  | zero => rfl
  | succ n ih => rw [memWrite, memWrite, ih fun b hb => h b (by omega), h n (by omega)]

/-- Two little-endian writes side by side are one write of the concatenation (R46). -/
theorem memWrite_memWrite (m : Memory) {a b n k p q : Nat} (v : BitVec p) (w : BitVec q) (hb : b = a + n)
    (hp : p = 8 * n) : memWrite (memWrite m a v n) b w k = memWrite m a (w ++ v) (n + k) := by
  subst hb hp
  induction k with
  | zero => exact memWrite_congr m a n fun b hb => (BitVec.extractLsb'_append_eq_of_add_le (by omega)).symm
  | succ k ih =>
    have hbyte : (w ++ v).extractLsb' (8 * (n + k)) 8 = w.extractLsb' (8 * k) 8 := by
      rw [BitVec.extractLsb'_append_eq_of_le (by omega), ← Nat.mul_sub, Nat.add_sub_cancel_left]
    rw [memWrite, ih, ← Nat.add_assoc, memWrite, hbyte, Nat.add_assoc]

end Sys2Proof.Machine
end

section
/-! PROOFS. SAVE and RESTORE (R136, R137) on the image layout of R48. -/

namespace Sys2Proof.Machine

/-! ### SAVE -/

/-- The image of a state as a port value (R48), which SAVE writes (`saveImage_eq_loadImg`). Its type names the ten widths, which add
up to 352, so that the concatenation lemmas see them. -/
def State.savedImage (s : State) : BitVec (64 + (32 + (32 + (32 + (32 + (32 + (32 + (32 + (32 + 32))))))))) :=
  gcDField s.gcD ++ (gcFField s.gcF ++ (flagWord s.gcDValid ++ (flagWord s.gcFValid ++
    (s.d ++ (s.x.x4 ++ (s.x.x3 ++ (s.x.x2 ++ (s.x.x1 ++ s.x.x0))))))))

/-- SAVE's ten writes are side by side, so they are one write of the image (R48, R136). -/
theorem saveImage_eq_loadImg (s : State) : saveImage s = loadImg s.img s.savedImage := by
  simp only [saveImage, memWrite_memWrite, Nat.reduceAdd, Nat.reduceMul]
  rfl

/-- The image at the ten offsets of R48: with the fields above it dropped, each field is the head of the rest. -/
theorem State.savedImage_fields (s : State) :
    s.savedImage.extractLsb' 0 32 = s.x.x0 ∧ s.savedImage.extractLsb' 32 32 = s.x.x1 ∧
    s.savedImage.extractLsb' 64 32 = s.x.x2 ∧ s.savedImage.extractLsb' 96 32 = s.x.x3 ∧
    s.savedImage.extractLsb' 128 32 = s.x.x4 ∧ s.savedImage.extractLsb' 160 32 = s.d ∧
    s.savedImage.extractLsb' 192 32 = flagWord s.gcFValid ∧ s.savedImage.extractLsb' 224 32 = flagWord s.gcDValid ∧
    s.savedImage.extractLsb' 256 32 = gcFField s.gcF ∧ s.savedImage.extractLsb' 288 64 = gcDField s.gcD := by
  simp [State.savedImage, BitVec.extractLsb'_append_eq_of_le (v := 64), BitVec.extractLsb'_append_eq_of_le (v := 32),
    BitVec.extractLsb'_append_eq_of_add_le (v := 64), BitVec.extractLsb'_append_eq_of_add_le (v := 32)]

/-- Settles O22: SAVE loads the buffer with the image, whose fields are those of R48. -/
theorem saveWritesImage : Obligations.SaveWritesImage := by
  refine fun s hwf => ⟨fun hready => ⟨saveImage s, ?_, fun a ha => ?_, fun a ha => ?_, ?_⟩,
    exec_save_notReady⟩
  · simp only [exec_save hready, State.answer]
    rfl
  · exact read_eq_imgPort_extractLsb' _ ha
  · rw [saveImage_eq_loadImg, loadImg_read_outside hwf _ ha]
  · rw [saveImage_eq_loadImg, imgPort_loadImg hwf]
    exact s.savedImage_fields

/-! ### RESTORE -/

/-- The five `x` words of an image, as fields of the port value (R48). -/
theorem imgX_eq (m : Memory) :
    imgX m = ⟨(imgPort m).extractLsb' 0 32, (imgPort m).extractLsb' 32 32, (imgPort m).extractLsb' 64 32,
      (imgPort m).extractLsb' 96 32, (imgPort m).extractLsb' 128 32⟩ := by
  have hfield := @imgPort_extractLsb' m
  rw [imgX, ← hfield (by decide), ← hfield (by decide), ← hfield (by decide), ← hfield (by decide),
    ← hfield (by decide)]

theorem imgD_eq (m : Memory) : imgD m = (imgPort m).extractLsb' 160 32 :=
  (imgPort_extractLsb' m (a := 20) (n := 4) (by decide)).symm

theorem imgFlagF_eq (m : Memory) : imgFlagF m = (imgPort m).extractLsb' 192 32 :=
  (imgPort_extractLsb' m (a := 24) (n := 4) (by decide)).symm

theorem imgFlagD_eq (m : Memory) : imgFlagD m = (imgPort m).extractLsb' 224 32 :=
  (imgPort_extractLsb' m (a := 28) (n := 4) (by decide)).symm

theorem imgGcF_eq (m : Memory) :
    imgGcF m = if (imgPort m).extractLsb' 192 32 = 1#32 then some ((imgPort m).extractLsb' 256 32) else none := by
  rw [imgGcF, imgFlagF_eq, ← imgPort_extractLsb' m (by decide)]

theorem imgGcD_eq (m : Memory) :
    imgGcD m = if (imgPort m).extractLsb' 224 32 = 1#32 then some ((imgPort m).extractLsb' 288 64) else none := by
  rw [imgGcD, imgFlagD_eq, ← imgPort_extractLsb' m (by decide)]

theorem ShiftReg.isZero_iff (x : ShiftReg) : x.isZero = true ↔ x = ⟨0, 0, 0, 0, 0⟩ := by
  cases x
  simp [ShiftReg.isZero, BitVec.or_eq_zero_iff, and_assoc]

/-- When an image is refused (R137, R153). -/
theorem imageBad_iff (m : Memory) :
    imageBad m = true ↔ 1 < imgFlagF m ∨ 1 < imgFlagD m ∨ imgX m = ⟨0, 0, 0, 0, 0⟩ := by
  rw [imageBad, Bool.or_eq_true, Bool.or_eq_true, decide_eq_true_iff, decide_eq_true_iff, ShiftReg.isZero_iff, or_assoc]
  rfl

/-- Settles O23: the law of RESTORE on a refused and on an accepted image, each field read off the port value. -/
theorem restoreLoadsImage : Obligations.RestoreLoadsImage := by
  intro s p nx ff fd
  have hbad := imageBad_iff s.img
  rw [imgX_eq, imgFlagF_eq, imgFlagD_eq] at hbad
  split
  · next h => exact exec_restore_bad (hbad.2 h)
  · next h =>
    have hgood : imageBad s.img = false := Bool.eq_false_iff.2 (mt hbad.1 h)
    rw [exec_restore_good hgood, imgX_eq, imgD_eq, imgGcF_eq, imgGcD_eq]
    rfl

end Sys2Proof.Machine
end

section
/-! PROOFS. Faults (R150 to R153): the status that a command answers as a function of the command and the state it runs in. When
each fault is answered is read off that function, and a command that answers a fault has done nothing but raise it. -/

namespace Sys2Proof.Machine

/-! ### The status that a command answers -/

/-- The status of a command's response (R137, R151, R152); a micro-operation answers nothing. -/
def answeredStatus (i : Instr) (s : State) : Status :=
  if needsReady i then if s.ready then .ok else .notReady
  else
    match i with
    | .restore => if imageBad s.img then .badImage else .ok
    | .reserved0 | .reservedD | .reservedE | .reservedF => .illegalCommand
    | _ => .ok

theorem answeredStatus_of_needsReady {i : Instr} (s : State) (hi : needsReady i = true) :
    answeredStatus i s = if s.ready then .ok else .notReady := if_pos hi

theorem answeredStatus_restore (s : State) :
    answeredStatus .restore s = if imageBad s.img then .badImage else .ok := rfl

theorem answeredStatus_eq_illegalCommand_iff (i : Instr) (s : State) :
    answeredStatus i s = .illegalCommand ↔ i = .reserved0 ∨ i = .reservedD ∨ i = .reservedE ∨ i = .reservedF := by
  cases i <;> simp [answeredStatus, needsReady.eq_def, ite_eq_iff]

theorem answeredStatus_eq_notReady_iff (i : Instr) (s : State) :
    answeredStatus i s = .notReady ↔ s.ready = false ∧ needsReady i = true := by
  cases i <;> simp [answeredStatus, needsReady.eq_def, ite_eq_iff]

theorem answeredStatus_eq_badImage_iff (i : Instr) (s : State) :
    answeredStatus i s = .badImage ↔ i = .restore ∧ imageBad s.img = true := by
  cases i <;> simp [answeredStatus, needsReady.eq_def, ite_eq_iff]

/-- A reserved opcode answers IllegalCommand, whatever `ready` is (R151). -/
theorem exec_reserved {i : Instr} (s : State)
    (hi : i = .reserved0 ∨ i = .reservedD ∨ i = .reservedE ∨ i = .reservedF) :
    exec i s = .next (s.raise .illegalCommand) := by
  rcases hi with rfl | rfl | rfl | rfl <;> rfl

/-- A command that needs a ready engine answers OK from one that is: it has no other fault (R152). -/
theorem exec_ready_answersOk {i : Instr} {s : State} (hi : needsReady i = true) (h : s.ready = true) :
    ∃ t r, exec i s = .next t ∧ t.rsp = some r ∧ r.status = .ok := by
  cases i with
  | next => exact ⟨_, _, exec_next h, rfl, rfl⟩
  | skip n => exact ⟨_, _, exec_skip n h, State.finishSkip_rsp .., rfl⟩
  | skipsub n => exact ⟨_, _, exec_skipsub n h, rfl, rfl⟩
  | gcgetf => exact ⟨_, _, exec_gcgetf h, rfl, rfl⟩
  | gcgetd => exact ⟨_, _, exec_gcgetd h, rfl, rfl⟩
  | gcputf b => exact ⟨_, _, exec_gcputf b h, rfl, rfl⟩
  | gcputd b => exact ⟨_, _, exec_gcputd b h, rfl, rfl⟩
  | gcclrf => exact ⟨_, _, exec_gcclrf h, rfl, rfl⟩
  | gcclrd => exact ⟨_, _, exec_gcclrd h, rfl, rfl⟩
  | save => exact ⟨_, _, exec_save h, rfl, rfl⟩
  | _ => cases hi

/-- Every command answers with `answeredStatus`. -/
theorem exec_answers_status {i : Instr} (s : State) (hi : i.isCommand = true) :
    ∃ t r, exec i s = .next t ∧ t.rsp = some r ∧ r.status = answeredStatus i s := by
  cases hneeds : needsReady i with
  | true =>
    rw [answeredStatus_of_needsReady s hneeds]
    cases hready : s.ready with
    | true => exact exec_ready_answersOk hneeds hready
    | false => exact ⟨_, _, exec_notReady hneeds hready, rfl, rfl⟩
  | false =>
    cases i with
    | init a b c => exact ⟨_, _, exec_init a b c, State.finishInit_rsp .., rfl⟩
    | restore =>
      cases himg : imageBad s.img with
      | true => exact ⟨_, _, exec_restore_bad himg, rfl, by simp [answeredStatus_restore, himg]⟩
      | false => exact ⟨_, _, exec_restore_good himg, rfl, by simp [answeredStatus_restore, himg]⟩
    | reserved0 | reservedD | reservedE | reservedF => exact ⟨_, _, exec_reserved s (by simp), rfl, rfl⟩
    | mulvecT | mulvecA | loada | squarea => cases hi
    | _ => cases hneeds

section
variable {i : Instr} {s t : State} {r : Response}

/-- The status of a command's response is `answeredStatus`. -/
theorem status_eq_answeredStatus (hi : i.isCommand = true) (ht : exec i s = .next t) (hr : t.rsp = some r) :
    r.status = answeredStatus i s := by
  obtain ⟨u, q, hu, hq, hstatus⟩ := exec_answers_status s hi
  cases hu.symm.trans ht
  cases hq.symm.trans hr
  exact hstatus

/-- A command that answers a fault does nothing else (R150). -/
theorem eq_raise_of_status_ne_ok (hi : i.isCommand = true) (ht : exec i s = .next t) (hr : t.rsp = some r)
    (hfault : r.status ≠ .ok) : t = s.raise r.status := by
  obtain ⟨u, hu, hcase⟩ := exec_raises_or_answersOk s hi
  cases hu.symm.trans ht
  rcases hcase with ⟨f, -, rfl⟩ | hok
  · cases hr
    rfl
  · cases hok.symm.trans hr
    exact absurd (okResponse_status i s t) hfault

end

/-! ### The conditions as the obligations write them -/

/-- The ten commands that the obligations list, as `needsReady` (R152). -/
theorem needsReady_iff (i : Instr) :
    needsReady i = true ↔
      match i with
      | .next | .skip _ | .skipsub _ | .gcgetf | .gcgetd | .gcputf _ | .gcputd _ | .gcclrf | .gcclrd | .save => True
      | _ => False := by
  unfold needsReady
  cases i <;> simp

/-- The five zero `x` words of an image (R137). -/
theorem imgX_eq_zero_iff (m : Memory) : imgX m = ⟨0, 0, 0, 0, 0⟩ ↔ ∀ k < 5, imgRead m (4 * k) 4 = 0 := by
  simp only [imgX, ShiftReg.mk.injEq, Nat.forall_lt_succ_right, Nat.not_lt_zero, false_imp_iff, implies_true, true_and,
    and_assoc]

/-! ### The obligations -/

/-- Settles O43: each reserved opcode raises IllegalCommand, and raising writes the response and `busy` only. -/
theorem reservedOpcodesIllegal : Obligations.ReservedOpcodesIllegal := fun s _ hi => exec_reserved s hi

/-- Settles O44: the ten commands raise NotReady while not ready, and an answered NotReady gives back both of its conditions. -/
theorem notReadyRaised : Obligations.NotReadyRaised := by
  refine ⟨fun s i hready hi => exec_notReady ((needsReady_iff i).2 hi) hready, ?_⟩
  intro s t i r hi ht hr hstatus
  rw [status_eq_answeredStatus hi ht hr, answeredStatus_eq_notReady_iff] at hstatus
  obtain ⟨hready, hneeds⟩ := hstatus
  refine ⟨hready, ?_, fun a b c => ?_⟩
  · rintro rfl
    cases hneeds
  · rintro rfl
    cases hneeds

/-- Settles O45: a fault is `State.raise` of its status, and each status is answered under the conditions of `answeredStatus`. -/
theorem faultsChangeNothing : Obligations.FaultsChangeNothing := by
  refine ⟨?_, rfl, rfl, rfl, rfl⟩
  intro i s t r hi ht hr
  refine ⟨fun hfault => ?_, ?_⟩
  · have hraise := eq_raise_of_status_ne_ok hi ht hr hfault
    exact ⟨hraise, by rw [hraise]; rfl⟩
  · rw [status_eq_answeredStatus hi ht hr, ← imgX_eq_zero_iff]
    refine ⟨answeredStatus_eq_illegalCommand_iff i s, ?_, ?_⟩
    · exact (answeredStatus_eq_notReady_iff i s).trans (and_congr_right' (needsReady_iff i))
    · exact (answeredStatus_eq_badImage_iff i s).trans (and_congr_right' (imageBad_iff s.img))

end Sys2Proof.Machine
end

section
/-! PROOFS. The micro-operation word is its three fields (R67), and the decoder inverts the encoder in every build. -/

namespace Sys2Proof

open Machine (tselOf_tselBit)

section
variable {n mi : Nat} (mop : Nat) (t : TableSel)

theorem microOpWord_eq (n mi : Nat) :
    microOpWord n mop (tselBit t) mi = 2 ^ miw n * (2 * mop + tselBit t) + mi := by
  rw [microOpWord, Nat.pow_succ]
  ring

/-- The fields `mop` and `tsel` of a micro-operation word, as one number (R67). -/
theorem microOpWord_div_two_pow_miw (h : mi < 2 ^ miw n) :
    microOpWord n mop (tselBit t) mi / 2 ^ miw n = 2 * mop + tselBit t := by
  rw [microOpWord_eq, Nat.mul_add_div (Nat.two_pow_pos _), Nat.div_eq_of_lt h, Nat.add_zero]

theorem mopField_microOpWord (h : mi < 2 ^ miw n) :
    microOpWord n mop (tselBit t) mi / 2 ^ (miw n + 1) = mop := by
  have ht := Laws.tselBit_lt t
  rw [Nat.pow_succ, ← Nat.div_div_eq_div_mul, microOpWord_div_two_pow_miw mop t h]
  omega

theorem tselField_microOpWord (h : mi < 2 ^ miw n) :
    tselOf (microOpWord n mop (tselBit t) mi / 2 ^ miw n % 2) = t := by
  have ht := Laws.tselBit_lt t
  rw [microOpWord_div_two_pow_miw mop t h, Nat.mul_add_mod, Nat.mod_eq_of_lt ht, tselOf_tselBit]

theorem miField_microOpWord (h : mi < 2 ^ miw n) : microOpWord n mop (tselBit t) mi % 2 ^ miw n = mi := by
  rw [microOpWord_eq, Nat.mul_add_mod, Nat.mod_eq_of_lt h]

end

section
variable {n mi : Nat} (t : TableSel) (h : mi < 2 ^ miw n)
include h

theorem decodeMicroOp_mulvecT : decodeMicroOp n (microOpWord n 0 (tselBit t) mi) =
    if mi < n then .ok (.mulvecT t mi) else .error .tableIndexOutOfRange := by
  have hlt := Laws.microOpWord_lt n 0 _ mi (by decide) (Laws.tselBit_lt t) h
  simp only [decodeMicroOp, Nat.not_le.2 hlt, if_false, mopField_microOpWord 0 t h, tselField_microOpWord 0 t h,
    miField_microOpWord 0 t h]

/-- MULVEC.A ignores `tsel` and `mi` (R66). -/
theorem decodeMicroOp_mulvecA : decodeMicroOp n (microOpWord n 1 (tselBit t) mi) = .ok .mulvecA := by
  have hlt := Laws.microOpWord_lt n 1 _ mi (by decide) (Laws.tselBit_lt t) h
  simp only [decodeMicroOp, Nat.not_le.2 hlt, if_false, mopField_microOpWord 1 t h]

theorem decodeMicroOp_loada : decodeMicroOp n (microOpWord n 2 (tselBit t) mi) =
    if mi < n then .ok (.loada t mi) else .error .tableIndexOutOfRange := by
  have hlt := Laws.microOpWord_lt n 2 _ mi (by decide) (Laws.tselBit_lt t) h
  simp only [decodeMicroOp, Nat.not_le.2 hlt, if_false, mopField_microOpWord 2 t h, tselField_microOpWord 2 t h,
    miField_microOpWord 2 t h]

/-- SQUAREA ignores `tsel` and `mi` (R66). -/
theorem decodeMicroOp_squarea : decodeMicroOp n (microOpWord n 3 (tselBit t) mi) = .ok .squarea := by
  have hlt := Laws.microOpWord_lt n 3 _ mi (by decide) (Laws.tselBit_lt t) h
  simp only [decodeMicroOp, Nat.not_le.2 hlt, if_false, mopField_microOpWord 3 t h]

end

/-- Settles O4: the decoder of each word whose three fields are in range, and the refusal of a wider one. -/
theorem microOperationMap : Obligations.MicroOperationMap := fun _ t _ h =>
  ⟨decodeMicroOp_mulvecT t h, decodeMicroOp_mulvecA t h, decodeMicroOp_loada t h, decodeMicroOp_squarea t h,
    fun _ hw => if_pos hw⟩

/-- Settles O5: a command word has its four fields, a micro-operation word its three. -/
theorem decodeInvertsEncode : Obligations.DecodeInvertsEncode := by
  intro c i hwf
  cases i with
  | mulvecT t mi =>
    have hmi : mi < c.N := of_decide_eq_true hwf
    exact (decodeMicroOp_mulvecT t (hmi.trans_le (Laws.le_two_pow_miw _))).trans (if_pos hmi)
  | loada t mi =>
    have hmi : mi < c.N := of_decide_eq_true hwf
    exact (decodeMicroOp_loada t (hmi.trans_le (Laws.le_two_pow_miw _))).trans (if_pos hmi)
  | mulvecA => exact decodeMicroOp_mulvecA .step (Nat.two_pow_pos _)
  | squarea => exact decodeMicroOp_squarea .step (Nat.two_pow_pos _)
  | gcputf b =>
    have hlow : (b.setWidth 64).extractLsb' 0 32 = b := by
      rw [← BitVec.setWidth_eq_extractLsb' (by decide), BitVec.setWidth_setWidth_of_le _ (by decide), BitVec.setWidth_eq]
    simp [encode, decode, decodeCommand, hlow]
  | _ => simp [encode, decode, decodeCommand]

/-- Settles O2: the encoder and the decoder computed on the ten fixed words of R72. -/
theorem workedEncodings : Obligations.WorkedEncodings := by
  unfold Obligations.WorkedEncodings
  decide

end Sys2Proof
end

section
/-! PROOFS. The one-step operator is a bijection (R13): an xorshift of a word has only the zero word in its kernel. -/

namespace Sys2Proof.Machine

/-- A left xorshift by one sends only zero to zero: bit by bit from the lowest. -/
theorem eq_zero_of_xorShiftLeft_eq_zero {n : Nat} {a : BitVec n} (h : a ^^^ (a <<< 1) = 0#n) : a = 0#n := by
  have hshift : a = a <<< 1 := BitVec.xor_eq_zero_iff.1 h
  refine BitVec.eq_of_getLsbD_eq fun i hi => ?_
  rw [BitVec.getLsbD_zero]
  induction i with
  | zero => rw [hshift]; simp
  | succ i ih =>
    rw [hshift, BitVec.getLsbD_shiftLeft]
    simp [ih (by omega)]

/-- A right xorshift by two sends only zero to zero: the word is a quarter of itself. -/
theorem eq_zero_of_xorShiftRight_eq_zero {n : Nat} {a : BitVec n} (h : a ^^^ (a >>> 2) = 0#n) : a = 0#n := by
  have hshift : a.toNat = a.toNat / 2 ^ 2 := by
    conv_lhs => rw [BitVec.xor_eq_zero_iff.1 h, BitVec.toNat_ushiftRight, Nat.shiftRight_eq_div_pow]
  exact BitVec.eq_of_toNat_eq (by rw [BitVec.toNat_zero]; omega)

theorem ShiftReg.advance_eq_zero {x : ShiftReg} (h : x.advance = ShiftReg.zero) : x = ShiftReg.zero := by
  obtain ⟨x0, x1, x2, x3, x4⟩ := x
  simp only [ShiftReg.advance, ShiftReg.zero, ShiftReg.mk.injEq] at h ⊢
  obtain ⟨rfl, rfl, rfl, rfl, h⟩ := h
  have hleft : (x0 ^^^ (x0 >>> 2)) ^^^ ((x0 ^^^ (x0 >>> 2)) <<< 1) = 0#32 := by simpa using h
  exact ⟨eq_zero_of_xorShiftRight_eq_zero (eq_zero_of_xorShiftLeft_eq_zero hleft), rfl, rfl, rfl, rfl⟩

/-- `A` sends only zero to zero (R13). -/
theorem stepA_eq_zero_iff (v : Vec) : stepA v = 0#160 ↔ v = 0#160 := by
  refine ⟨fun h => ?_, fun h => by rw [h, stepA_xorLinear.map_zero]⟩
  rw [← ShiftReg.toVec_ofVec v, stepA_toVec, ShiftReg.toVec_eq_zero] at h
  rw [← ShiftReg.toVec_ofVec v, ShiftReg.toVec_eq_zero]
  exact ShiftReg.advance_eq_zero h

theorem stepA_iterate_eq_zero_iff (k : Nat) (v : Vec) : stepA^[k] v = 0#160 ↔ v = 0#160 := by
  induction k with
  | zero => rfl
  | succ k ih => rw [Function.iterate_succ_apply', stepA_eq_zero_iff, ih]

theorem stepA_injective : Function.Injective stepA := fun u v h => by
  rw [← BitVec.xor_eq_zero_iff, ← stepA_eq_zero_iff, stepA_xorLinear, h, BitVec.xor_self]

/-- Settles O17: an injective map of the finite set of vectors is a bijection. -/
theorem oneStepOperatorLinearInvertible : Obligations.OneStepOperatorLinearInvertible :=
  have _ : Finite Vec := Finite.of_injective BitVec.toFin fun _ _ => BitVec.eq_of_toFin_eq
  ⟨stepA_xorLinear, stepA_xorLinear.map_zero, Finite.injective_iff_bijective.1 stepA_injective,
    stepA_iterate_eq_zero_iff⟩

end Sys2Proof.Machine
end

section
/-! PROOFS. The laws of the matrix product (R84), and the four micro-operations (R81, R82, R94, R96). -/

namespace Sys2Proof.Machine

/-! ### The product -/

/-- The product's loop is linear in the vector (R84). -/
theorem mulVecFrom_xor (u v : Vec) (r : Nat) (m : JumpMatrix) :
    mulVecFrom (u ^^^ v) r m 0#160 = mulVecFrom u r m 0#160 ^^^ mulVecFrom v r m 0#160 := by
  induction m generalizing r with
  | nil => simp [mulVecFrom]
  | cons row m ih =>
    have hrow : (if (u ^^^ v).getLsbD r then row else 0#160) =
        (if u.getLsbD r then row else 0#160) ^^^ (if v.getLsbD r then row else 0#160) := by
      rw [BitVec.getLsbD_xor]
      cases u.getLsbD r <;> cases v.getLsbD r <;> simp
    rw [mulVecFrom_cons, mulVecFrom_cons, mulVecFrom_cons, ih, hrow, xor_interchange]

theorem mulVec_xorLinear (m : JumpMatrix) : XorLinear (mulVec m) := fun u v => mulVecFrom_xor u v 0 m

/-- The product with `e_r` from row `s` on selects row `r` of the matrix, if it is still to come (R84). -/
theorem mulVecFrom_unitVec {r : Nat} (hr : r < 160) (s : Nat) (m : JumpMatrix) :
    mulVecFrom (unitVec r) s m 0#160 = if s ≤ r then m.row (r - s) else 0#160 := by
  induction m generalizing s with
  | nil => simp [mulVecFrom]
  | cons row m ih =>
    rw [mulVecFrom_cons, ih, unitVec_getLsbD, decide_eq_true hr, Bool.true_and]
    rcases Nat.lt_trichotomy s r with h | rfl | h
    · have hsub : r - s = r - (s + 1) + 1 := by omega
      rw [if_neg (by simp [h.ne']), if_pos (Nat.succ_le_of_lt h), if_pos h.le, BitVec.zero_xor, hsub]
      rfl
    · simp [JumpMatrix.row]
    · rw [if_neg (by simp [h.ne]), if_neg (by omega), if_neg (by omega), BitVec.zero_xor]

theorem mulVec_unitVec (m : JumpMatrix) {r : Nat} (hr : r < 160) : mulVec m (unitVec r) = m.row r :=
  mulVecFrom_unitVec hr 0 m

/-- A table entry applies its power of `A` (R90). -/
theorem mulVec_table (c : Config) (t : TableSel) (mi : Nat) (v : Vec) :
    mulVec (table c t mi) v = stepA^[2 ^ (c.W * mi) * unit t] v := by
  rw [table_eq_matrixOf, mulVec_matrixOf (stepA_iterate_xorLinear _)]

/-- Row `r` of a product, also past the rows that are stored (R83). -/
theorem mulMat_row (a b : JumpMatrix) (r : Nat) : (mulMat a b).row r = mulVec b (a.row r) := by
  have h0 : (0#160 : Vec) = mulVec b 0#160 := (mulVec_xorLinear b).map_zero.symm
  simp only [JumpMatrix.row, mulMat, List.getD_eq_getElem?_getD, List.getElem?_map]
  cases a[r]? with
  | none => exact h0
  | some row => rfl

theorem squareMat_matrixOf_stepA_iterate (p : Nat) :
    squareMat (matrixOf (stepA^[p])) = matrixOf (stepA^[2 * p]) := by
  rw [squareMat, mulMat_matrixOf_stepA_iterate, Nat.two_mul]

/-- Settles O28: each law is a lemma about the product above. -/
theorem matrixLaws : Obligations.MatrixLaws :=
  ⟨fun m => (mulVec_xorLinear m).map_zero, fun m _ hr => mulVec_unitVec m hr, mulVec_xorLinear,
    fun _ hf => mulVec_matrixOf hf, mulVec_table, fun f _ hg => mulMat_matrixOf f hg, mulMat_matrixOf_stepA_iterate,
    mulVec_matrixOf_id⟩

/-! ### The meaning of a micro-operation -/

/-- A micro-operation that the multiplier does not refuse in this state (R67, R82); SQUAREA runs in every state. -/
def MicroOp.runnable (s : State) : MicroOp → Prop
  | .mulvecT _ mi => mi < s.build.N
  | .mulvecA => s.maWritten = true
  | .loada _ mi => mi < s.build.N
  | .squarea => True

/-- The meaning of a micro-operation is its effect, where it is not refused (R66). -/
theorem exec_toInstr_eq_next_iff (m : MicroOp) (s t : State) :
    exec m.toInstr s = .next t ↔ m.runnable s ∧ t = applyMicro m s := by
  have hguard : ∀ (p : Prop) [Decidable p] (r : Refusal),
      (if p then Host.Outcome.next (applyMicro m s) else .refused r : Host.Outcome State Fault Refusal) = .next t ↔
        p ∧ t = applyMicro m s := by
    intro p _ r
    by_cases hp : p <;> simp [hp, eq_comm]
  cases m with
  | mulvecT | mulvecA | loada => exact hguard _ _
  | squarea => exact (Host.Outcome.next.injEq ..).to_iff.trans (eq_comm.trans (and_iff_right trivial).symm)

theorem exec_of_runnable {m : MicroOp} {s : State} (h : m.runnable s) : exec m.toInstr s = .next (applyMicro m s) :=
  (exec_toInstr_eq_next_iff m s _).2 ⟨h, rfl⟩

/-- Settles O31: the matrix is the table entry, whose words are those of the ROM. -/
theorem mulvecTApplies : Obligations.MulvecTApplies := fun s t mi hmi =>
  ⟨table s.build t mi, table_length .., fun _ _ hr hk => (romRead_romAddr s.build t hmi hr hk).symm,
    exec_of_runnable (m := .mulvecT t mi) hmi, mulVec_table ..⟩

/-- Settles O32: the written and the unwritten running matrix, and the product with a stored power. -/
theorem mulvecAApplies : Obligations.MulvecAApplies := fun s =>
  ⟨fun hw => exec_of_runnable (m := .mulvecA) hw, fun p hp => by rw [hp, mulVec_matrixOf (stepA_iterate_xorLinear p)],
    fun hw => if_neg (by simp [hw])⟩

/-- Settles O33: the matrix is the table entry, whose words are those of the ROM. -/
theorem loadaLoads : Obligations.LoadaLoads := fun s t mi hmi =>
  ⟨table s.build t mi, exec_of_runnable (m := .loada t mi) hmi, table_length ..,
    fun _ _ hr hk => (romRead_romAddr s.build t hmi hr hk).symm, table_eq_matrixOf ..⟩

/-- Settles O34: the matrix is the square of the old one, row by row. -/
theorem squareaSquares : Obligations.SquareaSquares := fun s =>
  ⟨squareMat s.ma, rfl, mulMat_length .., mulMat_row s.ma s.ma,
    fun p hp => by rw [hp, squareMat_matrixOf_stepA_iterate]⟩

/-- Settles O35: both meanings test the index first. -/
theorem tableIndexRefused : Obligations.TableIndexRefused := fun _ _ _ h =>
  ⟨if_neg (Nat.not_lt.2 h), if_neg (Nat.not_lt.2 h)⟩

end Sys2Proof.Machine
end

section
/-! PROOFS. The jump algorithm (R95, R97, R98): it advances `x` by its distance times the unit of its table, and its
scratch matrix keeps a power of `A`. -/

namespace Sys2Proof.Machine

/-! ### Sequences of micro-operations -/

theorem runMicros_cons (m : MicroOp) (ms : List MicroOp) (s : State) :
    runMicros (m :: ms) s = runMicros ms (applyMicro m s) := rfl

@[simp] theorem applyMicro_build (m : MicroOp) (s : State) : (applyMicro m s).build = s.build := by cases m <;> rfl

@[simp] theorem runMicros_build (ms : List MicroOp) (s : State) : (runMicros ms s).build = s.build := by
  obtain ⟨_, _, _, _, _, h⟩ := runMicros_frame ms s
  rw [h]

/-- The effect of MULVEC.T on `x` (R81, R90). -/
theorem applyMicro_mulvecT_toVec (t : TableSel) (mi : Nat) (s : State) :
    (applyMicro (.mulvecT t mi) s).x.toVec = stepA^[2 ^ (s.build.W * mi) * unit t] s.x.toVec :=
  (ShiftReg.toVec_ofVec _).trans (mulVec_table ..)

/-- The effect of MULVEC.A on `x` where `ma` stores a power of `A` (R82). -/
theorem applyMicro_mulvecA_toVec {s : State} {p : Nat} (h : s.ma = matrixOf (stepA^[p])) :
    (applyMicro .mulvecA s).x.toVec = stepA^[p] s.x.toVec := by
  refine (ShiftReg.toVec_ofVec _).trans ?_
  rw [h, mulVec_matrixOf (stepA_iterate_xorLinear p)]

/-- `n` applications of one table entry (R95, R98). -/
theorem runMicros_replicate_mulvecT_toVec (t : TableSel) (mi n : Nat) (s : State) :
    (runMicros (List.replicate n (.mulvecT t mi)) s).x.toVec =
      stepA^[n * (2 ^ (s.build.W * mi) * unit t)] s.x.toVec := by
  induction n generalizing s with
  | zero => rw [Nat.zero_mul]; rfl
  | succ n ih =>
    rw [List.replicate_succ, runMicros_cons, ih, applyMicro_mulvecT_toVec, applyMicro_build,
      ← Function.iterate_add_apply, ← Nat.succ_mul]

/-- `n` squarings raise the stored power to its `2^n` fold and leave `x` (R96, R97). -/
theorem runMicros_replicate_squarea {s : State} {p : Nat} (n : Nat) (h : s.ma = matrixOf (stepA^[p])) :
    (runMicros (List.replicate n .squarea) s).ma = matrixOf (stepA^[p * 2 ^ n]) ∧
    (runMicros (List.replicate n .squarea) s).x = s.x := by
  induction n generalizing s p with
  | zero => exact ⟨by rw [pow_zero, Nat.mul_one]; exact h, rfl⟩
  | succ n ih =>
    have hsq : (applyMicro .squarea s).ma = matrixOf (stepA^[2 * p]) := by
      rw [← squareMat_matrixOf_stepA_iterate, ← h]
      rfl
    obtain ⟨hma, hx⟩ := ih hsq
    have hexp : 2 * p * 2 ^ n = p * 2 ^ (n + 1) := by ring
    rw [List.replicate_succ, runMicros_cons, hma, hx, hexp]
    exact ⟨rfl, rfl⟩

/-! ### Shifts of the distance -/

theorem toNat_ushiftRight_eq_div {n : Nat} (v : BitVec n) (k : Nat) : (v >>> k).toNat = v.toNat / 2 ^ k := by
  rw [BitVec.toNat_ushiftRight, Nat.shiftRight_eq_div_pow]

theorem toNat_eq_getLsbD_zero_add (v : BitVec 64) : v.toNat = (v.getLsbD 0).toNat + 2 * (v >>> 1).toNat := by
  have hbit : (v.getLsbD 0).toNat = v.toNat % 2 := by
    rw [BitVec.getLsbD, Nat.testBit_zero]
    rcases Nat.mod_two_eq_zero_or_one v.toNat with h | h <;> rw [h] <;> rfl
  rw [hbit, toNat_ushiftRight_eq_div, pow_one, Nat.mod_add_div]

theorem toNat_eq_digit_add (c : Config) (v : BitVec 64) : v.toNat = digit c v + 2 ^ c.W * (v >>> c.W).toNat := by
  rw [digit, toNat_ushiftRight_eq_div, Nat.mod_add_div]

/-! ### The contract of each phase -/

/-- The micro-operation for one bit of the distance (R97). -/
theorem runMicros_squaringBit {s : State} {p : Nat} (b : Bool) (h : s.ma = matrixOf (stepA^[p])) :
    (runMicros (if b then [.mulvecA] else []) s).ma = matrixOf (stepA^[p]) ∧
    (runMicros (if b then [.mulvecA] else []) s).x.toVec = stepA^[b.toNat * p] s.x.toVec := by
  cases b with
  | false => rw [Bool.toNat_false, Nat.zero_mul]; exact ⟨h, rfl⟩
  | true => rw [Bool.toNat_true, Nat.one_mul]; exact ⟨h, applyMicro_mulvecA_toVec h⟩

/-- The loop of the squaring fallback applies the stored power as often as its distance says (R97). -/
theorem runMicros_squaringLoop_toVec {fuel : Nat} {v : BitVec 64} {s : State} {p : Nat} (hv : v.toNat < 2 ^ fuel)
    (h : s.ma = matrixOf (stepA^[p])) :
    (runMicros (squaringLoop fuel v) s).x.toVec = stepA^[v.toNat * p] s.x.toVec := by
  induction fuel generalizing v s p with
  | zero =>
    have hzero : v.toNat = 0 := by omega
    rw [hzero, Nat.zero_mul]
    rfl
  | succ fuel ih =>
    have hsplit := toNat_eq_getLsbD_zero_add v
    obtain ⟨hma, hx⟩ := runMicros_squaringBit (v.getLsbD 0) h
    rw [squaringLoop, runMicros_append]
    generalize runMicros (if v.getLsbD 0 then [.mulvecA] else []) s = s' at hma hx ⊢
    split
    · next hrest =>
      rw [hrest, BitVec.toNat_zero, Nat.mul_zero, Nat.add_zero] at hsplit
      rw [hsplit]
      exact hx
    · have hsq : (applyMicro .squarea s').ma = matrixOf (stepA^[2 * p]) := by
        rw [← squareMat_matrixOf_stepA_iterate, ← hma]
        rfl
      have hexp : (v >>> 1).toNat * (2 * p) + (v.getLsbD 0).toNat * p = v.toNat * p := by
        conv_rhs => rw [hsplit]
        ring
      calc (runMicros (.squarea :: squaringLoop fuel (v >>> 1)) s').x.toVec
          = stepA^[(v >>> 1).toNat * (2 * p)] s'.x.toVec := ih (by omega) hsq
        _ = stepA^[v.toNat * p] s.x.toVec := by rw [hx, ← Function.iterate_add_apply, hexp]

/-- Either fallback applies the entry after the last one of the table as often as its distance says (R97, R98). -/
theorem runMicros_fallback_toVec {c : Config} (t : TableSel) (v : BitVec 64) {s : State} (hs : s.build = c)
    (hN : 1 ≤ c.N) :
    (runMicros (fallback c t v) s).x.toVec = stepA^[v.toNat * (2 ^ (c.W * c.N) * unit t)] s.x.toVec := by
  have hlast : 2 ^ (c.W * (c.N - 1)) * 2 ^ c.W = 2 ^ (c.W * c.N) := by
    rw [← pow_add, ← Nat.mul_succ, Nat.succ_eq_add_one, Nat.sub_add_cancel hN]
  subst hs
  unfold fallback
  cases s.build.fallback with
  | squaring =>
    have hload : (applyMicro (.loada t (s.build.N - 1)) s).ma =
        matrixOf (stepA^[2 ^ (s.build.W * (s.build.N - 1)) * unit t]) := table_eq_matrixOf ..
    obtain ⟨hma, hx⟩ := runMicros_replicate_squarea s.build.W hload
    rw [Nat.mul_right_comm, hlast] at hma
    simp only [fallbackSquaring, runMicros_cons, runMicros_append]
    rw [runMicros_squaringLoop_toVec v.isLt hma, hx]
    rfl
  | linear =>
    have hexp : v.toNat * 2 ^ s.build.W * (2 ^ (s.build.W * (s.build.N - 1)) * unit t) =
        v.toNat * (2 ^ (s.build.W * s.build.N) * unit t) := by rw [← hlast]; ring
    simp only [fallbackLinear]
    rw [runMicros_replicate_mulvecT_toVec, hexp]

/-- The table phase from entry `mi` on, with what follows it (R95). -/
theorem runMicros_tablePhase_toVec {c : Config} (t : TableSel) {left mi : Nat} (v : BitVec 64) {s : State}
    (hs : s.build = c) (hN : 1 ≤ c.N) (hmi : left + mi = c.N) :
    (runMicros (tablePhase c t left mi v) s).x.toVec = stepA^[v.toNat * (2 ^ (c.W * mi) * unit t)] s.x.toVec := by
  induction left generalizing mi v s with
  | zero =>
    rw [tablePhase]
    split
    · next hv => rw [hv, BitVec.toNat_zero, Nat.zero_mul]; rfl
    · rw [Nat.zero_add] at hmi
      rw [runMicros_fallback_toVec t v hs hN, hmi]
  | succ left ih =>
    rw [tablePhase]
    split
    · next hv => rw [hv, BitVec.toNat_zero, Nat.zero_mul]; rfl
    · have hexp : (v >>> c.W).toNat * (2 ^ (c.W * (mi + 1)) * unit t) + digit c v * (2 ^ (c.W * mi) * unit t) =
          v.toNat * (2 ^ (c.W * mi) * unit t) := by
        conv_rhs => rw [toNat_eq_digit_add c v]
        rw [Nat.mul_succ, pow_add]
        ring
      rw [runMicros_append, ih _ ((runMicros_build ..).trans hs) (by omega), runMicros_replicate_mulvecT_toVec, hs,
        ← Function.iterate_add_apply, hexp]

/-- The contract of a jump on `x` (R90). -/
theorem jump_toVec (t : TableSel) (v : BitVec 64) {s : State} (hN : 1 ≤ s.build.N) :
    (jump t v s).x.toVec = stepA^[v.toNat * unit t] s.x.toVec := by
  rw [jump, jumpTrace, runMicros_tablePhase_toVec t v rfl hN (Nat.add_zero _), Nat.mul_zero, pow_zero, Nat.one_mul]

/-- The contract of a jump on `x`, as its five words (R90). -/
theorem jump_x (t : TableSel) (v : BitVec 64) {s : State} (hN : 1 ≤ s.build.N) :
    (jump t v s).x = ShiftReg.ofVec (stepA^[v.toNat * unit t] s.x.toVec) := by
  rw [← jump_toVec t v hN, ShiftReg.ofVec_toVec]

theorem Config.one_le_N {c : Config} (h : c.ok = true) : 1 ≤ c.N := by
  simp only [Config.ok, Bool.and_eq_true, decide_eq_true_iff] at h
  exact h.2

/-- The contract of a jump with its frame (R90). -/
theorem jump_eq (t : TableSel) (v : BitVec 64) {s : State} (hN : 1 ≤ s.build.N) :
    ∃ acc ma mb mw, jump t v s =
      { s with x := ShiftReg.ofVec (stepA^[v.toNat * unit t] s.x.toVec), acc := acc, ma := ma, mb := mb,
               maWritten := mw } := by
  obtain ⟨x, acc, ma, mb, mw, h⟩ := jump_frame t v s
  have hx : x = _ := (congrArg State.x h).symm.trans (jump_x t v hN)
  exact ⟨acc, ma, mb, mw, hx ▸ h⟩

theorem jumpTrace_zero (c : Config) (t : TableSel) : jumpTrace c t 0#64 = [] := by
  unfold jumpTrace
  cases c.N <;> rfl

/-- Settles O36: the contract and the frame of a jump, and the empty trace of distance 0. -/
theorem jumpMeetsContract : Obligations.JumpMeetsContract := fun s t v hok =>
  ⟨jump_eq t v (Config.one_le_N hok), by
    rintro rfl
    have hnil := jumpTrace_zero s.build t
    exact ⟨hnil, congrArg (runMicros · s) hnil⟩⟩

/-- Settles O37: the contract names neither `W` nor `N` nor the fallback. -/
theorem tableParametersInvisible : Obligations.TableParametersInvisible := fun s s' t v hok hok' hx => by
  rw [jump_x t v (Config.one_le_N hok'), jump_x t v (Config.one_le_N hok), hx]

end Sys2Proof.Machine
end

section
/-! PROOFS. The counts of micro-operations of a jump (R101). -/

namespace Sys2Proof.Machine

/-- The digits of a number in base `2^w`, lowest first (R68). -/
def digitsOf (w n : Nat) (left : Nat) : List Nat := (List.range left).map fun i => n / 2 ^ (w * i) % 2 ^ w

theorem digitsOf_succ (w n left : Nat) : digitsOf w n (left + 1) = n % 2 ^ w :: digitsOf w (n / 2 ^ w) left := by
  rw [digitsOf, List.range_succ_eq_map, List.map_cons, List.map_map, Nat.mul_zero, pow_zero, Nat.div_one]
  refine congrArg _ (List.map_congr_left fun i _ => ?_)
  rw [Function.comp_apply, Nat.mul_succ, Nat.add_comm, pow_add, Nat.div_div_eq_div_mul]

theorem digitsOf_zero_sum (w left : Nat) : (digitsOf w 0 left).sum = 0 := by
  rw [digitsOf, List.sum_eq_zero]
  simp

/-- What the table phase issues of a kind that holds all MULVEC.T or none (R95, R101). -/
theorem countP_tablePhase (c : Config) (t : TableSel) (p : MicroOp → Bool) (b : Bool)
    (hp : ∀ mi, p (.mulvecT t mi) = b) (left mi : Nat) (v : BitVec 64) :
    (tablePhase c t left mi v).countP p =
      b.toNat * (digitsOf c.W v.toNat left).sum +
        if v >>> (c.W * left) = 0#64 then 0 else (fallback c t (v >>> (c.W * left))).countP p := by
  have hzero : ∀ left, b.toNat * (digitsOf c.W (0#64).toNat left).sum = 0 := fun left => by
    rw [BitVec.toNat_zero, digitsOf_zero_sum, Nat.mul_zero]
  induction left generalizing mi v with
  | zero =>
    rw [tablePhase, Nat.mul_zero, BitVec.ushiftRight_zero]
    split
    · next hv => rw [hv, hzero]; rfl
    · rw [digitsOf, List.range_zero, List.map_nil, List.sum_nil, Nat.mul_zero, Nat.zero_add]
  | succ left ih =>
    rw [tablePhase]
    split
    · next hv => rw [hv, hzero, BitVec.zero_ushiftRight, if_pos rfl]; rfl
    · have hshift : v >>> c.W >>> (c.W * left) = v >>> (c.W * (left + 1)) := by
        rw [← BitVec.shiftRight_add, Nat.mul_succ, Nat.add_comm]
      have hhead : (List.replicate (digit c v) (MicroOp.mulvecT t mi)).countP p = b.toNat * digit c v := by
        rw [List.countP_replicate, hp]
        cases b <;> simp
      rw [List.countP_append, hhead, ih, hshift, toNat_ushiftRight_eq_div, digitsOf_succ, List.sum_cons, digit]
      ring

/-- The MULVEC.A of the squaring loop are the set bits of its distance (R97, R101). -/
theorem count_mulvecA_squaringLoop (fuel : Nat) (v : BitVec 64) :
    (squaringLoop fuel v).count .mulvecA = (digitsOf 1 v.toNat fuel).sum := by
  induction fuel generalizing v with
  | zero => rfl
  | succ fuel ih =>
    have hbit : v.toNat % 2 ^ 1 = (v.getLsbD 0).toNat := by
      have := toNat_eq_getLsbD_zero_add v
      have := (v.getLsbD 0).toNat_le
      omega
    have hhead : (if v.getLsbD 0 then [MicroOp.mulvecA] else []).count .mulvecA = (v.getLsbD 0).toNat := by
      cases v.getLsbD 0 <;> rfl
    rw [squaringLoop, List.count_append, hhead, digitsOf_succ, List.sum_cons, hbit, ← toNat_ushiftRight_eq_div]
    congr 1
    split
    · next hv => rw [hv, BitVec.toNat_zero, digitsOf_zero_sum]; rfl
    · rw [List.count_cons_of_ne (by decide), ih]

/-- The SQUAREA of the squaring loop: one between two bits of the distance (R97, R101). -/
theorem count_squarea_squaringLoop {fuel : Nat} {v : BitVec 64} (hv : v.toNat < 2 ^ fuel) :
    (squaringLoop fuel v).count .squarea = Nat.log2 v.toNat := by
  induction fuel generalizing v with
  | zero =>
    have hzero : v.toNat = 0 := by omega
    rw [hzero]
    rfl
  | succ fuel ih =>
    have hhead : (if v.getLsbD 0 then [MicroOp.mulvecA] else []).count .squarea = 0 := by
      cases v.getLsbD 0 <;> rfl
    have hhalf : (v >>> 1).toNat = v.toNat / 2 := toNat_ushiftRight_eq_div v 1
    rw [squaringLoop, List.count_append, hhead, Nat.zero_add, Nat.log2_def]
    have hiff : v >>> 1 = 0#64 ↔ ¬ 2 ≤ v.toNat := by
      rw [← BitVec.toNat_inj, hhalf, BitVec.toNat_zero]
      omega
    split
    · next h => rw [if_neg (hiff.1 h)]; rfl
    · next h => rw [if_pos (not_not.1 (mt hiff.2 h)), List.count_cons_self, ih (by omega), hhalf]

/-- The squaring loop issues nothing but MULVEC.A and SQUAREA (R97). -/
theorem countP_squaringLoop_eq_zero (p : MicroOp → Bool) (hA : p .mulvecA = false) (hS : p .squarea = false)
    (fuel : Nat) (v : BitVec 64) : (squaringLoop fuel v).countP p = 0 := by
  induction fuel generalizing v with
  | zero => rfl
  | succ fuel ih =>
    rw [squaringLoop, List.countP_append]
    split <;> split <;> simp [hA, hS, ih]

/-- The counts of the squaring fallback (R97, R101). -/
theorem fallbackSquaring_counts (c : Config) (t : TableSel) (v : BitVec 64) :
    (fallbackSquaring c t v).countP MicroOp.isMulvecT = 0 ∧
    (fallbackSquaring c t v).count .mulvecA = (digitsOf 1 v.toNat 64).sum ∧
    (fallbackSquaring c t v).countP MicroOp.isLoada = 1 ∧
    (fallbackSquaring c t v).count .squarea = c.W + Nat.log2 v.toNat := by
  have hmulvecT := countP_squaringLoop_eq_zero MicroOp.isMulvecT rfl rfl 64 v
  have hloada := countP_squaringLoop_eq_zero MicroOp.isLoada rfl rfl 64 v
  simp [fallbackSquaring, List.countP_cons, List.count_replicate, List.countP_replicate, MicroOp.isMulvecT,
    MicroOp.isLoada, hmulvecT, hloada, count_mulvecA_squaringLoop, count_squarea_squaringLoop v.isLt]

/-- The counts of the linear fallback (R98, R101). -/
theorem fallbackLinear_counts (c : Config) (t : TableSel) (v : BitVec 64) :
    (fallbackLinear c t v).countP MicroOp.isMulvecT = v.toNat * 2 ^ c.W ∧ (fallbackLinear c t v).count .mulvecA = 0 ∧
    (fallbackLinear c t v).countP MicroOp.isLoada = 0 ∧ (fallbackLinear c t v).count .squarea = 0 := by
  simp [fallbackLinear, List.count_replicate, List.countP_replicate, MicroOp.isMulvecT, MicroOp.isLoada]

/-- Settles O38: the digits of the table phase, and the fallback's counts for the distance beyond the table. -/
theorem microOperationCounts : Obligations.MicroOperationCounts := by
  intro c t v _ ms digits rem pop
  have hrem : (v >>> (c.W * c.N)).toNat = rem := toNat_ushiftRight_eq_div ..
  have hpop : (digitsOf 1 rem 64).sum = pop := by simp only [pop, digitsOf, Nat.one_mul, pow_one]
  have hzero : v >>> (c.W * c.N) = 0#64 ↔ rem = 0 := by rw [← BitVec.toNat_inj, hrem, BitVec.toNat_zero]
  have htotal : ∀ (p : MicroOp → Bool) (b : Bool), (∀ mi, p (.mulvecT t mi) = b) →
      ms.countP p = b.toNat * digits + if rem = 0 then 0 else (fallback c t (v >>> (c.W * c.N))).countP p := by
    intro p b hp
    have h := countP_tablePhase c t p b hp c.N 0 v
    simp only [hzero] at h
    exact h
  have hmulvecT := htotal MicroOp.isMulvecT true fun _ => rfl
  have hmulvecA : ms.count .mulvecA = _ := htotal (· == .mulvecA) false fun _ => rfl
  have hloada := htotal MicroOp.isLoada false fun _ => rfl
  have hsquarea : ms.count .squarea = _ := htotal (· == .squarea) false fun _ => rfl
  refine ⟨fun hf => ?_, fun hf => ?_⟩
  · obtain ⟨h1, h2, h3, h4⟩ := fallbackSquaring_counts c t (v >>> (c.W * c.N))
    rw [List.count] at h2 h4
    simp only [fallback, hf, h1, h2, h3, h4, hrem, hpop, Bool.toNat_true, Bool.toNat_false, Nat.one_mul, Nat.zero_mul,
      Nat.zero_add, ite_self] at hmulvecT hmulvecA hloada hsquarea
    refine ⟨hmulvecT, hmulvecA.trans ?_, hloada, hsquarea⟩
    split
    · next h => rw [← hpop, h, digitsOf_zero_sum]
    · rfl
  · obtain ⟨h1, h2, h3, h4⟩ := fallbackLinear_counts c t (v >>> (c.W * c.N))
    rw [List.count] at h2 h4
    simp only [fallback, hf, h1, h2, h3, h4, hrem, Bool.toNat_true, Bool.toNat_false, Nat.one_mul, Nat.zero_mul,
      Nat.zero_add, ite_self] at hmulvecT hmulvecA hloada hsquarea
    refine ⟨hmulvecT.trans ?_, hmulvecA, hloada, hsquarea⟩
    split
    · next h => rw [h, Nat.zero_mul]
    · rfl

end Sys2Proof.Machine
end

section
/-! PROOFS. What an instruction can do, said once: a command raises its fault or leaves `okState`, a micro-operation has
its effect. The statements about single instructions follow field by field. -/

namespace Sys2Proof.Machine

/-! ### The next state of a command -/

/-- The state after a command that answers OK (R110 to R137); an opcode that never does answers IllegalCommand (R65). -/
def okState (i : Instr) (s : State) : State :=
  match i with
  | .init seed subsequence offset => (jump .step offset (jump .sub subsequence (s.seedExpand seed))).finishInit offset
  | .next => { s with x := s.x.advance, d := s.d + Config.weyl }.respond .ok false
      (zext64 (outputWord s.x.advance (s.d + Config.weyl)))
  | .skip n => (jump .step n s).finishSkip n
  | .skipsub n => (jump .sub n s).finishSkipsub
  | .gcgetf => s.respond .ok s.gcFValid (zext64 (gcFField s.gcF))
  | .gcgetd => s.respond .ok s.gcDValid (gcDField s.gcD)
  | .gcputf b => { s with gcF := some b }.respond .ok false 0#64
  | .gcputd b => { s with gcD := some b }.respond .ok false 0#64
  | .gcclrf => { s with gcF := none }.respond .ok false 0#64
  | .gcclrd => { s with gcD := none }.respond .ok false 0#64
  | .save => { s with img := saveImage s }.answer ⟨.ok, false, 0#64, imgPort (saveImage s)⟩
  | .restore => { s with x := imgX s.img, d := imgD s.img, gcF := imgGcF s.img, gcD := imgGcD s.img,
                         ready := true }.respond .ok false 0#64
  | _ => s.raise .illegalCommand

theorem exec_ready {i : Instr} {s : State} (hi : needsReady i = true) (h : s.ready = true) :
    exec i s = .next (okState i s) := by
  cases i with
  | next => exact exec_next h
  | skip n => exact exec_skip n h
  | skipsub n => exact exec_skipsub n h
  | gcgetf => exact exec_gcgetf h
  | gcgetd => exact exec_gcgetd h
  | gcputf b => exact exec_gcputf b h
  | gcputd b => exact exec_gcputd b h
  | gcclrf => exact exec_gcclrf h
  | gcclrd => exact exec_gcclrd h
  | save => exact exec_save h
  | _ => cases hi

/-- A command leaves `okState` where it answers OK, and raises its fault otherwise (R150). -/
theorem exec_command {i : Instr} (hi : i.isCommand = true) (s : State) :
    exec i s = .next (if answeredStatus i s = .ok then okState i s else s.raise (answeredStatus i s)) := by
  cases hneeds : needsReady i with
  | true =>
    rw [answeredStatus_of_needsReady s hneeds]
    cases hready : s.ready with
    | true => exact exec_ready hneeds hready
    | false => exact exec_notReady hneeds hready
  | false =>
    cases i with
    | init a b c => exact exec_init a b c
    | restore =>
      rw [answeredStatus_restore]
      cases himg : imageBad s.img with
      | true => exact exec_restore_bad himg
      | false => exact exec_restore_good himg
    | reserved0 | reservedD | reservedE | reservedF => rfl
    | mulvecT | mulvecA | loada | squarea => cases hi
    | _ => cases hneeds

/-! ### The two kinds of instruction -/

/-- An instruction is a command or a micro-operation (R62, R65, R66). -/
theorem isCommand_or_toInstr (i : Instr) : i.isCommand = true ∨ ∃ m : MicroOp, i = m.toInstr := by
  cases i with
  | mulvecT t mi => exact .inr ⟨.mulvecT t mi, rfl⟩
  | mulvecA => exact .inr ⟨.mulvecA, rfl⟩
  | loada t mi => exact .inr ⟨.loada t mi, rfl⟩
  | squarea => exact .inr ⟨.squarea, rfl⟩
  | _ => exact .inl rfl

/-- Everything an instruction with a next state can have done. -/
theorem exec_cases {i : Instr} {s t : State} (h : exec i s = .next t) :
    (i.isCommand = true ∧ ∃ f, t = s.raise f) ∨
    (i.isCommand = true ∧ answeredStatus i s = .ok ∧ t = okState i s) ∨
    ∃ m : MicroOp, i = m.toInstr ∧ m.runnable s ∧ t = applyMicro m s := by
  rcases isCommand_or_toInstr i with hi | ⟨m, rfl⟩
  · rw [exec_command hi] at h
    split at h
    · next hok => cases h; exact .inr (.inl ⟨hi, hok, rfl⟩)
    · cases h; exact .inl ⟨hi, _, rfl⟩
  · exact .inr (.inr ⟨m, rfl, (exec_toInstr_eq_next_iff m s t).1 h⟩)

/-- What no command changes, and what every command leaves behind: its response, and `busy` 0. -/
structure CommandFrame (s t : State) : Prop where
  build  : t.build = s.build
  sq     : t.sq = s.sq
  uop    : t.uop = s.uop
  inputs : t.inputs = s.inputs
  task   : t.task = none
  rsp    : ∃ r, t.rsp = some r

theorem CommandFrame.raise (s : State) (f : Status) : CommandFrame s (s.raise f) := ⟨rfl, rfl, rfl, rfl, rfl, _, rfl⟩

theorem CommandFrame.okState (i : Instr) (s : State) : CommandFrame s (okState i s) := by
  cases i with
  | init a b c => constructor <;> simp [Machine.okState.eq_def]
  | skip n => constructor <;> simp [Machine.okState.eq_def]
  | skipsub n => constructor <;> simp [Machine.okState.eq_def]
  | _ => exact ⟨rfl, rfl, rfl, rfl, rfl, _, rfl⟩

theorem exec_command_frame {i : Instr} (hi : i.isCommand = true) (s : State) :
    ∃ t, exec i s = .next t ∧ CommandFrame s t := by
  refine ⟨_, exec_command hi s, ?_⟩
  split
  · exact .okState i s
  · exact .raise s _

theorem commandFrame_of_exec {i : Instr} {s t : State} (hi : i.isCommand = true) (h : exec i s = .next t) :
    CommandFrame s t := by
  obtain ⟨u, hu, hframe⟩ := exec_command_frame hi s
  cases hu.symm.trans h
  exact hframe

/-- What no micro-operation changes. -/
structure MicroFrame (s t : State) : Prop where
  build  : t.build = s.build
  d      : t.d = s.d
  gcF    : t.gcF = s.gcF
  gcD    : t.gcD = s.gcD
  ready  : t.ready = s.ready
  task   : t.task = s.task
  sq     : t.sq = s.sq
  uop    : t.uop = s.uop
  img    : t.img = s.img
  inputs : t.inputs = s.inputs

theorem MicroFrame.applyMicro (m : MicroOp) (s : State) : MicroFrame s (applyMicro m s) := by
  cases m <;> exact ⟨rfl, rfl, rfl, rfl, rfl, rfl, rfl, rfl, rfl, rfl⟩

/-- Settles O46: a response, and no command in progress, is part of what every command leaves behind. -/
theorem everyCommandAnswers : Obligations.EveryCommandAnswers := fun i s hi => by
  obtain ⟨t, ht, hframe⟩ := exec_command_frame hi s
  obtain ⟨r, hr⟩ := hframe.rsp
  exact ⟨t, r, ht, hr, by rw [State.busy, hframe.task]; rfl⟩

/-! ### What each command may write -/

/-- Settles O21: a fault and a micro-operation write no slot, and the commands that answer OK are gone through. -/
theorem cacheFilledOnlyByPutAndRestore : Obligations.CacheFilledOnlyByPutAndRestore := by
  intro i s t h
  rcases exec_cases h with ⟨-, f, rfl⟩ | ⟨-, -, rfl⟩ | ⟨m, rfl, -, rfl⟩
  · refine ⟨fun hs ht => absurd hs ht, fun hs ht => absurd hs ht, ?_⟩
    cases i <;> simp
  · cases i <;> simp +contextual [okState.eq_def]
  · have hframe := MicroFrame.applyMicro m s
    rw [hframe.gcF, hframe.gcD]
    refine ⟨fun hs ht => absurd hs ht, fun hs ht => absurd hs ht, ?_⟩
    cases m <;> exact ⟨rfl, rfl⟩

/-- Settles O49: a fault and a micro-operation leave `ready`, and the commands that answer OK are gone through. -/
theorem readyOnlyByInitOrRestore : Obligations.ReadyOnlyByInitOrRestore := by
  intro i s t h
  rcases exec_cases h with ⟨-, f, rfl⟩ | ⟨-, -, rfl⟩ | ⟨m, rfl, -, rfl⟩
  · exact ⟨id, fun hs ht => absurd ht (Bool.eq_false_iff.1 hs)⟩
  · cases i <;> simp +contextual [okState.eq_def]
  · rw [(MicroFrame.applyMicro m s).ready]
    exact ⟨id, fun hs ht => absurd ht (Bool.eq_false_iff.1 hs)⟩

/-- Settles O48: a fault writes none of the columns, and the commands that answer OK are gone through. -/
theorem accessMatrixWrites : Obligations.AccessMatrixWrites := by
  intro i s t hi h
  rcases exec_cases h with ⟨-, f, rfl⟩ | ⟨-, -, rfl⟩ | ⟨m, rfl, -, rfl⟩
  · cases i <;> simp
  · cases i <;> simp [okState.eq_def]
  · cases m <;> cases hi

/-! ### The shift register and the Weyl register -/

/-- The registers that no micro-operation reads or writes may be set before a sequence of micro-operations or after it. -/
theorem runMicros_setControl (ms : List MicroOp) (s : State) (d : Word) (k : Option Task) (q : Sequencer)
    (r : Option Response) :
    runMicros ms { s with d := d, task := k, sq := q, rsp := r } =
      { runMicros ms s with d := d, task := k, sq := q, rsp := r } := by
  induction ms generalizing s with
  | nil => rfl
  | cons m ms ih =>
    rw [runMicros_cons, runMicros_cons, ← ih]
    cases m <;> rfl

/-- A jump reads no `d` (R33). -/
theorem jump_x_setD (t : TableSel) (v : BitVec 64) (s : State) (d : Word) :
    (jump t v { s with d := d }).x = (jump t v s).x := by
  rw [jump, runMicros_setControl (jumpTrace s.build t v) s d s.task s.sq s.rsp]
  rfl

/-- The Weyl register after a command depends on no `x` (R33). -/
theorem okState_d_setX (i : Instr) (s : State) (x : ShiftReg) : (okState i { s with x := x }).d = (okState i s).d := by
  cases i <;> simp [okState.eq_def]

/-- The shift register after a command depends on no `d` (R33). -/
theorem okState_x_setD (i : Instr) (s : State) (d : Word) : (okState i { s with d := d }).x = (okState i s).x := by
  cases i with
  | init a b c =>
    have hseed : State.seedExpand { s with d := d } a = s.seedExpand a := rfl
    simp only [okState.eq_def, hseed]
  | skip n => simp [okState.eq_def, jump_x_setD]
  | skipsub n => simp [okState.eq_def, jump_x_setD]
  | _ => simp [okState.eq_def]

/-- Settles O50: neither register decides whether a command answers OK, and no micro-operation reads or writes `d`. -/
theorem shiftRegisterAndWeylIndependent : Obligations.ShiftRegisterAndWeylIndependent := by
  intro i s t t' x d
  rcases isCommand_or_toInstr i with hi | ⟨m, rfl⟩
  · have hx : answeredStatus i { s with x := x } = answeredStatus i s := rfl
    have hd : answeredStatus i { s with d := d } = answeredStatus i s := rfl
    rw [exec_command hi, exec_command hi, exec_command hi, hx, hd]
    split
    · refine ⟨?_, ?_⟩
      · rintro ⟨⟩ ⟨⟩
        exact okState_d_setX i s x
      · rintro ⟨⟩ ⟨⟩
        exact okState_x_setD i s d
    · refine ⟨?_, ?_⟩ <;> rintro ⟨⟩ ⟨⟩ <;> rfl
  · simp only [exec_toInstr_eq_next_iff]
    refine ⟨?_, ?_⟩
    · rintro ⟨-, rfl⟩ ⟨-, rfl⟩
      rw [(MicroFrame.applyMicro ..).d, (MicroFrame.applyMicro ..).d]
    · rintro ⟨-, rfl⟩ ⟨-, rfl⟩
      cases m <;> rfl

end Sys2Proof.Machine
end

section
/-! PROOFS. One step, at both levels: an equation for each agent that can move (R2, R8), and the inversion of a step whose
instruction's own cases are inverted too. -/

namespace Sys2Proof.Machine

/-! ### The equations of a step -/

section
variable {run : Instr → State → Host.Outcome State Fault Refusal} {s : State} (ha : admitted s.build = true)
include ha

theorem stepWith_reset {rest : List PortInput} (hin : s.inputs = .reset :: rest) :
    stepWith run s = .next (s.resetTo rest) := by
  simp only [stepWith, ha, if_true, hin]

theorem stepWith_microOp (hin : ∀ rest, s.inputs ≠ .reset :: rest) {w : Nat} (hu : s.uop = some w) :
    stepWith run s = takeMicroOp w s := by
  simp only [stepWith, ha, if_true, hu]

theorem stepWith_line (hin : ∀ rest, s.inputs ≠ .reset :: rest) (hu : s.uop = none) {k : Task}
    (hk : s.task = some k) : stepWith run s = .next (seqLine k s.tick) := by
  simp only [stepWith, ha, if_true, hu, hk]

theorem stepWith_command {w : BitVec 196} {img : BitVec 352} {rest : List PortInput} (hu : s.uop = none)
    (hk : s.task = none) (hin : s.inputs = .command w img :: rest) :
    stepWith run s = run (decodeCommand w) (s.accept w img rest) := by
  simp only [stepWith, ha, if_true, hu, hk, hin]

theorem stepWith_nothing (hin : ∀ rest, s.inputs ≠ .reset :: rest) (hu : s.uop = none) (hk : s.task = none)
    (hcmd : ∀ w img rest, s.inputs ≠ .command w img :: rest) : stepWith run s = .next s.tick := by
  simp only [stepWith, ha, if_true, hu, hk]

end

/-! ### The lines of the sequencer -/

/-- The word of a micro-operation (R66, R67). -/
def MicroOp.word (c : Config) : MicroOp → Nat
  | .mulvecT t mi => microOpWord c.N 0 (tselBit t) mi
  | .mulvecA => microOpWord c.N 1 0 0
  | .loada t mi => microOpWord c.N 2 (tselBit t) mi
  | .squarea => microOpWord c.N 3 0 0

@[simp] theorem encode_toInstr (c : Config) (m : MicroOp) : encode c m.toInstr = .microOp (m.word c) := by
  cases m <;> rfl

theorem State.issue_eq (s : State) (m : MicroOp) : s.issue m = { s with uop := some (m.word s.build) } := by
  simp only [State.issue, encode_toInstr]

/-- The sequencer's table (R100) as a relation between its registers before and after a line, with the micro-operation
that the line issues. The line of `DONE` is the engine's, `State.complete`. -/
inductive Line (c : Config) (k : Task) (q : Sequencer) : Option MicroOp → Sequencer → Prop
  | start (hp : q.phase = .idle) : Line c k q none { q with tsel := k.sel, v := k.distance, mi := 0, phase := .digit }
  | finish (hp : q.phase = .digit) (hv : q.v = 0#64) : Line c k q none { q with phase := .done }
  | squaring (hp : q.phase = .digit) (hv : q.v ≠ 0#64) (hmi : ¬ q.mi < c.N) (hf : c.fallback = .squaring) :
      Line c k q none { q with phase := .fbLoad }
  | linear (hp : q.phase = .digit) (hv : q.v ≠ 0#64) (hmi : ¬ q.mi < c.N) (hf : c.fallback = .linear) :
      Line c k q none { q with lin := q.v <<< c.W, v := 0#64, phase := .fbLin }
  | digit (hp : q.phase = .digit) (hv : q.v ≠ 0#64) (hmi : q.mi < c.N) :
      Line c k q none { q with rep := BitVec.ofNat 64 (digit c q.v), phase := .apply }
  | apply (hp : q.phase = .apply) (hrep : q.rep ≠ 0#64) :
      Line c k q (some (.mulvecT q.tsel q.mi)) { q with rep := q.rep - 1#64 }
  | applied (hp : q.phase = .apply) (hrep : q.rep = 0#64) :
      Line c k q none { q with mi := q.mi + 1, v := q.v >>> c.W, phase := .digit }
  | load (hp : q.phase = .fbLoad) :
      Line c k q (some (.loada q.tsel (c.N - 1))) { q with k := BitVec.ofNat 7 c.W, phase := .fbAlign }
  | align (hp : q.phase = .fbAlign) (hk : q.k ≠ 0#7) : Line c k q (some .squarea) { q with k := q.k - 1#7 }
  | aligned (hp : q.phase = .fbAlign) (hk : q.k = 0#7) : Line c k q none { q with phase := .fbBit }
  | bitSet (hp : q.phase = .fbBit) (hbit : q.v.getLsbD 0 = true) :
      Line c k q (some .mulvecA) { q with v := q.v >>> 1, phase := if q.v >>> 1 = 0#64 then .done else .fbSq }
  | bitClear (hp : q.phase = .fbBit) (hbit : q.v.getLsbD 0 = false) :
      Line c k q none { q with v := q.v >>> 1, phase := .fbSq }
  | square (hp : q.phase = .fbSq) : Line c k q (some .squarea) { q with phase := .fbBit }
  | linearApply (hp : q.phase = .fbLin) (hlin : q.lin ≠ 0#64) :
      Line c k q (some (.mulvecT q.tsel (c.N - 1))) { q with lin := q.lin - 1#64 }
  | linearDone (hp : q.phase = .fbLin) (hlin : q.lin = 0#64) : Line c k q none { q with phase := .done }

/-- A line of the table is what the sequencer does where the multiplier is idle (R100). -/
theorem seqLine_eq_of_line {k : Task} {s : State} {u : Option MicroOp} {q : Sequencer} (h : Line s.build k s.sq u q)
    (hu : s.uop = none) : seqLine k s = { s with uop := u.map (MicroOp.word s.build), sq := q } := by
  cases h with
  | bitSet hp hbit => simp only [seqLine, hp, hbit, if_true, State.issue_eq]; rfl
  | bitClear hp hbit => simp only [seqLine, hp, hbit, hu]; rfl
  | _ => simp [seqLine, State.issue_eq, *]

theorem seqLine_of_done {k : Task} {s : State} (hp : s.sq.phase = .done) :
    seqLine k s = { s with sq := { s.sq with phase := .idle } }.complete k := by
  simp only [seqLine, hp]

/-- Every phase but `DONE` has a line for every value of the registers (R100). -/
theorem exists_line (c : Config) (k : Task) {q : Sequencer} (hp : q.phase ≠ .done) : ∃ u q', Line c k q u q' := by
  cases h : q.phase with
  | idle => exact ⟨_, _, .start h⟩
  | digit =>
    by_cases hv : q.v = 0#64
    · exact ⟨_, _, .finish h hv⟩
    · by_cases hmi : q.mi < c.N
      · exact ⟨_, _, .digit h hv hmi⟩
      · cases hf : c.fallback with
        | squaring => exact ⟨_, _, .squaring h hv hmi hf⟩
        | linear => exact ⟨_, _, .linear h hv hmi hf⟩
  | apply =>
    by_cases hrep : q.rep = 0#64
    · exact ⟨_, _, .applied h hrep⟩
    · exact ⟨_, _, .apply h hrep⟩
  | fbLoad => exact ⟨_, _, .load h⟩
  | fbAlign =>
    by_cases hk : q.k = 0#7
    · exact ⟨_, _, .aligned h hk⟩
    · exact ⟨_, _, .align h hk⟩
  | fbBit =>
    cases hbit : q.v.getLsbD 0 with
    | true => exact ⟨_, _, .bitSet h hbit⟩
    | false => exact ⟨_, _, .bitClear h hbit⟩
  | fbSq => exact ⟨_, _, .square h⟩
  | fbLin =>
    by_cases hlin : q.lin = 0#64
    · exact ⟨_, _, .linearDone h hlin⟩
    · exact ⟨_, _, .linearApply h hlin⟩
  | done => exact absurd h hp

/-- What the sequencer does is a line of the table, or the completion of a jump (R100). -/
theorem seqLine_cases (k : Task) {s : State} (hu : s.uop = none) :
    (∃ u q, Line s.build k s.sq u q ∧ seqLine k s = { s with uop := u.map (MicroOp.word s.build), sq := q }) ∨
    (s.sq.phase = .done ∧ seqLine k s = { s with sq := { s.sq with phase := .idle } }.complete k) := by
  by_cases hp : s.sq.phase = .done
  · exact .inr ⟨hp, seqLine_of_done hp⟩
  · obtain ⟨u, q, h⟩ := exists_line s.build k hp
    exact .inl ⟨u, q, h, seqLine_eq_of_line h hu⟩

/-- What no line of the sequencer changes, the completion of a jump included. -/
structure LineFrame (s t : State) : Prop where
  build     : t.build = s.build
  x         : t.x = s.x
  ma        : t.ma = s.ma
  maWritten : t.maWritten = s.maWritten
  img       : t.img = s.img
  inputs    : t.inputs = s.inputs

theorem LineFrame.complete (k : Task) (s : State) : LineFrame s (s.complete k) := by
  cases k <;> constructor <;> simp [State.complete]

theorem LineFrame.seqLine (k : Task) {s : State} (hu : s.uop = none) : LineFrame s (seqLine k s) := by
  rcases seqLine_cases k hu with ⟨u, q, -, h⟩ | ⟨-, h⟩
  · rw [h]
    exact ⟨rfl, rfl, rfl, rfl, rfl, rfl⟩
  · rw [h]
    have hframe := LineFrame.complete k { s with sq := { s.sq with phase := .idle } }
    exact ⟨hframe.build, hframe.x, hframe.ma, hframe.maWritten, hframe.img, hframe.inputs⟩

/-! ### The inversion of a step -/

/-- At the micro-operation level an accepted command runs as at the command level, or its jump is now in progress: an
INIT has expanded its seed, a skip has found a ready engine (R111, R115, R117). -/
theorem begin_cases (i : Instr) (s : State) :
    begin i s = exec i s ∨
    ∃ x d k, begin i s = .next { s with x := x, d := d, task := some k } ∧
      (s.ready = true ∧ x = s.x ∨ ∃ seed, x = (seeded s.build seed).1) := by
  cases i with
  | init a b c => exact .inr ⟨_, _, _, rfl, .inr ⟨a, rfl⟩⟩
  | skip n =>
    cases hready : s.ready with
    | true => exact .inr ⟨s.x, s.d, .skip n, by simp [begin, beginSkip, hready], .inl ⟨rfl, rfl⟩⟩
    | false => exact .inl (by simp [begin, beginSkip, exec_skip_notReady n hready, hready])
  | skipsub n =>
    cases hready : s.ready with
    | true => exact .inr ⟨s.x, s.d, .skipsub n, by simp [begin, beginSkipsub, hready], .inl ⟨rfl, rfl⟩⟩
    | false => exact .inl (by simp [begin, beginSkipsub, exec_skipsub_notReady n hready, hready])
  | _ => exact .inl rfl

/-- Everything that a step of either level to a next state can be. -/
inductive StepCase (s t : State) : Prop
  | reset (rest : List PortInput) (hin : s.inputs = .reset :: rest) (ht : t = s.resetTo rest)
  | microOp (w : Nat) (m : MicroOp) (hu : s.uop = some w) (hd : decodeMicroOp s.build.N w = .ok m.toInstr)
      (hm : m.runnable s) (ht : t = applyMicro m s.takeUop)
  | line (k : Task) (hu : s.uop = none) (hk : s.task = some k) (ht : t = seqLine k s.tick)
  | command (w : BitVec 196) (img : BitVec 352) (rest : List PortInput) (hu : s.uop = none) (hk : s.task = none)
      (hin : s.inputs = .command w img :: rest) (ht : exec (decodeCommand w) (s.accept w img rest) = .next t)
  | jump (w : BitVec 196) (img : BitVec 352) (rest : List PortInput) (x : ShiftReg) (d : Word) (k : Task)
      (hu : s.uop = none) (hk : s.task = none) (hin : s.inputs = .command w img :: rest)
      (ht : t = { s.accept w img rest with x := x, d := d, task := some k })
      (hx : s.ready = true ∧ x = s.x ∨ ∃ seed, x = (seeded s.build seed).1)
  | nothing (hu : s.uop = none) (hk : s.task = none) (ht : t = s.tick)

/-- A decoded micro-operation word is a micro-operation (R66). -/
theorem exists_toInstr_of_decodeMicroOp {n w : Nat} {i : Instr} (h : decodeMicroOp n w = .ok i) :
    ∃ m : MicroOp, i = m.toInstr := by
  rcases decodeMicroOp_cases h with ⟨t, mi, rfl, -⟩ | rfl | ⟨t, mi, rfl, -⟩ | rfl
  · exact ⟨.mulvecT t mi, rfl⟩
  · exact ⟨.mulvecA, rfl⟩
  · exact ⟨.loada t mi, rfl⟩
  · exact ⟨.squarea, rfl⟩

theorem MicroOp.runnable_takeUop (m : MicroOp) (s : State) : m.runnable s.takeUop ↔ m.runnable s := by
  cases m <;> rfl

/-- The inversion of a step whose accepted command runs as at the command level, or has its jump in progress now. -/
theorem stepCase_of_stepWith {run : Instr → State → Host.Outcome State Fault Refusal}
    (hrun : ∀ i a, run i a = exec i a ∨
      ∃ x d k, run i a = .next { a with x := x, d := d, task := some k } ∧
        (a.ready = true ∧ x = a.x ∨ ∃ seed, x = (seeded a.build seed).1))
    {s t : State} (h : stepWith run s = .next t) : admitted s.build = true ∧ StepCase s t := by
  obtain ⟨ha, hcase⟩ := stepWith_cases h
  refine ⟨ha, ?_⟩
  rcases hcase with ⟨rest, hin, ht⟩ | ⟨w, i, hu, hd, hex⟩ | ⟨k, hu, hk, ht⟩ | ⟨w, img, rest, hu, hk, hin, ht⟩ |
    ⟨hu, hk, ht⟩
  · exact .reset rest hin ht
  · obtain ⟨m, rfl⟩ := exists_toInstr_of_decodeMicroOp hd
    obtain ⟨hm, ht⟩ := (exec_toInstr_eq_next_iff ..).1 hex
    exact .microOp w m hu hd ((m.runnable_takeUop s).1 hm) ht
  · exact .line k hu hk ht
  · rcases hrun (decodeCommand w) (s.accept w img rest) with hexec | ⟨x, d, k, hjump, hx⟩
    · exact .command w img rest hu hk hin (hexec.symm.trans ht)
    · cases hjump.symm.trans ht
      exact .jump w img rest x d k hu hk hin rfl hx
  · exact .nothing hu hk ht

theorem stepCase_of_next {s t : State} (h : step s = .next t ∨ microStep s = .next t) :
    admitted s.build = true ∧ StepCase s t :=
  h.elim (stepCase_of_stepWith fun _ _ => .inl rfl) (stepCase_of_stepWith begin_cases)

/-- Settles O51: a command, a micro-operation and a line of the sequencer keep the build, and reset takes it over. -/
theorem configurationFixed : Obligations.ConfigurationFixed := by
  intro s t h
  obtain ⟨-, hcase⟩ := stepCase_of_next h
  cases hcase with
  | reset rest hin ht => rw [ht]; rfl
  | microOp w m hu hd hm ht => rw [ht, applyMicro_build]; rfl
  | line k hu hk ht => rw [ht, (LineFrame.seqLine k (s := s.tick) hu).build]; rfl
  | command w img rest hu hk hin ht => exact (commandFrame_of_exec (decodeCommand_isCommand w) ht).build
  | jump w img rest x d k hu hk hin ht hx => rw [ht]; rfl
  | nothing hu hk ht => rw [ht]; rfl

/-- Settles O52: a busy block moves by a micro-operation or a line of the sequencer, and neither takes a command from
the pins. -/
theorem busyHoldsCommand : Obligations.BusyHoldsCommand := by
  intro s t w img rest hbusy hin h
  refine ⟨by rw [State.cmdReady, hbusy]; rfl, ?_⟩
  have hidle : s.task ≠ none := fun hk => by simp [State.busy, hk] at hbusy
  have htick : inputsTick s.inputs = s.inputs := by rw [hin]; rfl
  obtain ⟨-, hcase⟩ := stepCase_of_next h
  cases hcase with
  | reset rest' hin' ht => simp [hin] at hin'
  | microOp w m hu hd hm ht => rw [ht, (MicroFrame.applyMicro ..).inputs, State.takeUop_inputs, htick]
  | line k hu hk ht => rw [ht, (LineFrame.seqLine k (s := s.tick) hu).inputs, State.tick_inputs, htick]
  | command w img rest hu hk hin ht => exact absurd hk hidle
  | jump w img rest x d k hu hk hin ht hx => exact absurd hk hidle
  | nothing hu hk ht => exact absurd hk hidle

/-- A command keeps the canonical form of the `IMG` space: SAVE writes its image inside it, and no other command writes
it. -/
theorem exec_command_img_wf {i : Instr} {s t : State} (hi : i.isCommand = true) (h : exec i s = .next t)
    (hwf : Memory.wf s.img = true) : Memory.wf t.img = true := by
  rcases exec_cases h with ⟨-, f, rfl⟩ | ⟨-, -, rfl⟩ | ⟨m, rfl, -, rfl⟩
  · rwa [State.raise_img]
  · cases i with
    | save =>
      simp only [okState.eq_def, State.answer_img]
      exact saveImage_wf s hwf
    | _ => simpa [okState.eq_def] using hwf
  · cases m <;> cases hi

/-- Sampling the presented image keeps the canonical form. -/
theorem accept_img_wf {s : State} (w : BitVec 196) (img : BitVec 352) (rest : List PortInput)
    (hwf : Memory.wf s.img = true) : Memory.wf (s.accept w img rest).img = true := by
  simp only [State.accept, sampledImg]
  split
  · exact loadImg_wf _ _ hwf
  · exact hwf

/-- Settles O56: the space is written by SAVE, by the sampling of an image and by reset only. -/
theorem imageSpaceCanonical : Obligations.ImageSpaceCanonical := by
  intro s t hwf h
  obtain ⟨-, hcase⟩ := stepCase_of_next h
  cases hcase with
  | reset rest hin ht => rw [ht]; rfl
  | microOp w m hu hd hm ht => rw [ht, (MicroFrame.applyMicro ..).img]; exact hwf
  | line k hu hk ht => rw [ht, (LineFrame.seqLine k (s := s.tick) hu).img]; exact hwf
  | command w img rest hu hk hin ht =>
    exact exec_command_img_wf (decodeCommand_isCommand w) ht (accept_img_wf w img rest hwf)
  | jump w img rest x d k hu hk hin ht hx => rw [ht]; exact accept_img_wf w img rest hwf
  | nothing hu hk ht => rw [ht]; exact hwf

/-! ### Statements about one step -/

/-- Settles O1: the equations of a command and of a micro-operation, with the state before it written out. -/
theorem stepRunsDecodedInstruction : Obligations.StepRunsDecodedInstruction := by
  refine fun s ha => ⟨fun w img rest hu hk hin => ?_, fun w i hu hin hd => ?_⟩
  · exact stepWith_command ha hu hk hin
  · rw [step, stepWith_microOp ha hin hu, takeMicroOp, hd]
    rfl

/-- Settles O53: the equation of a reset at both levels. -/
theorem resetLeavesNotReady : Obligations.ResetLeavesNotReady :=
  ⟨fun s rest ha hin => ⟨s.resetTo rest, stepWith_reset ha hin, stepWith_reset ha hin, rfl, rfl, rfl, rfl, rfl, rfl, rfl,
    rfl⟩, rfl, rfl, rfl, rfl, rfl⟩

/-- Settles O16: the pattern written out; `x0` and `x4` get the same addend and start apart, so they are not both zero. -/
theorem defaultSeedMixNonDegenerate : Obligations.DefaultSeedMixNonDegenerate := by
  have hmix : ∀ (x : ShiftReg) (d t0 t1 : Word), seedMix Config.default.seedMix (x, d) t0 t1 =
      (⟨x.x0 + t0, x.x1 ^^^ t0, x.x2 + t1, x.x3 ^^^ t1, x.x4 + t0⟩, d + (t1 + t0)) := fun _ _ _ _ => rfl
  have hnonzero : NonDegenerate Config.default.seedMix := by
    intro t0 t1 h
    rw [startValues, hmix, ShiftReg.zero, ShiftReg.mk.injEq] at h
    obtain ⟨h0, -, -, -, h4⟩ := h
    exact absurd ((BitVec.add_left_inj t0).1 (h0.trans h4.symm)) (by decide)
  exact ⟨hmix, hnonzero, fun seed => hnonzero _ _⟩

/-- Settles O55: the default build is admitted by its seed mixing, and the registers at reset are computed. -/
theorem invariantsHoldAtReset : Obligations.InvariantsHoldAtReset := by
  have ha : admitted State.reset.build = true :=
    (admitted_iff _).2 ⟨by decide, defaultSeedMixNonDegenerate.2.1⟩
  refine ⟨⟨ha, ?_, ?_⟩, ⟨ha, ?_, fun _ => rfl, ?_, ?_⟩, ⟨ha, by decide, ?_⟩, rfl⟩
  · rintro (h | h) <;> cases h
  · intro h; cases h
  · intro w h; cases h
  · rintro (h | h | h) <;> cases h
  · intro h; cases h
  · intro h; cases h

/-- No instruction is refused because of the build. -/
theorem exec_ne_notABuild (i : Instr) (s : State) : exec i s ≠ .refused .notABuild := by
  rcases isCommand_or_toInstr i with hi | ⟨m, rfl⟩
  · rw [exec_command hi]
    simp
  · cases m with
    | squarea => simp [MicroOp.toInstr, exec, execSquarea]
    | mulvecT | mulvecA | loada =>
      simp only [MicroOp.toInstr, exec, execMulvecT, execMulvecA, execLoada]
      split <;> simp

theorem begin_ne_notABuild (i : Instr) (s : State) : begin i s ≠ .refused .notABuild := by
  rcases begin_cases i s with h | ⟨x, d, k, h, -⟩
  · rw [h]; exact exec_ne_notABuild i s
  · rw [h]; simp

/-- A step refuses the build exactly when the build is not admitted (R114). -/
theorem stepWith_eq_notABuild_iff {run : Instr → State → Host.Outcome State Fault Refusal}
    (hrun : ∀ i s, run i s ≠ .refused .notABuild) (s : State) :
    stepWith run s = .refused .notABuild ↔ ¬ admitted s.build = true := by
  unfold stepWith
  split
  · next ha =>
    refine iff_of_false ?_ (not_not.2 ha)
    split
    · simp
    · split
      · unfold takeMicroOp
        split
        · exact exec_ne_notABuild _ _
        · simp
        · simp
      · split
        · simp
        · split
          · exact hrun _ _
          · simp
  · next ha => exact iff_of_true rfl ha

/-- Settles O58: a step refuses what is not admitted, and what is admitted is decided exactly. -/
theorem admittedBuildsExactly : Obligations.AdmittedBuildsExactly := by
  intro s good
  have hgood : good ↔ admitted s.build = true := by
    rw [admitted_iff]
    simp only [good, NonDegenerate, and_assoc]
  rw [hgood]
  exact ⟨stepWith_eq_notABuild_iff exec_ne_notABuild s, stepWith_eq_notABuild_iff begin_ne_notABuild s⟩

/-! ### The product of several blocks (R159) -/

theorem stepInstance_eq_next_iff {q : Nat} {ss a : List State} :
    stepInstance q ss = .next a ↔
      (ss[q]? = none ∧ a = ss) ∨ ∃ s t, ss[q]? = some s ∧ step s = .next t ∧ a = ss.set q t := by
  unfold stepInstance
  cases hs : ss[q]? with
  | none => simp [eq_comm]
  | some s => cases hstep : step s <;> simp [hstep, eq_comm]

/-- Settles O57: a step reads and writes its own place in the list. -/
theorem instancesIndependent : Obligations.InstancesIndependent := by
  intro p q ss a b hpq ha hb
  have hother : ∀ {i j : Nat} {ts : List State}, i ≠ j → stepInstance i ss = .next ts → ts[j]? = ss[j]? := by
    intro i j ts hij hc
    obtain ⟨-, rfl⟩ | ⟨s, t, -, -, rfl⟩ := stepInstance_eq_next_iff.1 hc
    · rfl
    · exact List.getElem?_set_ne hij
  have hq := hother hpq ha
  have hp := hother hpq.symm hb
  simp only [stepInstance_eq_next_iff, hp, hq]
  obtain ⟨hpnone, rfl⟩ | ⟨s, s', hs, hstep, rfl⟩ := stepInstance_eq_next_iff.1 ha
  · refine ⟨b, ?_, .inl ⟨hpnone, rfl⟩, trivial, trivial⟩
    exact stepInstance_eq_next_iff.1 hb
  · obtain ⟨hqnone, rfl⟩ | ⟨u, u', hu, hstep', rfl⟩ := stepInstance_eq_next_iff.1 hb
    · exact ⟨_, .inl ⟨hqnone, rfl⟩, .inr ⟨s, s', hs, hstep, rfl⟩, trivial, trivial⟩
    · exact ⟨_, .inr ⟨u, u', hu, hstep', rfl⟩, .inr ⟨s, s', hs, hstep, List.set_comm _ _ hpq⟩, trivial, trivial⟩

end Sys2Proof.Machine
end

section
/-! PROOFS. The sequencer's discipline and its counters (R27, R95, R100): what stands on the multiplier's port may be
executed, and every line keeps the counters in their widths. -/

namespace Sys2Proof.Machine

/-! ### Words on the multiplier's port -/

theorem MicroOp.issuable.runnable {m : MicroOp} {s : State} (h : m.issuable s) : m.runnable s := by
  cases m with
  | squarea => trivial
  | _ => exact h

theorem MicroOp.issuable.wf {m : MicroOp} {s : State} (h : m.issuable s) : m.toInstr.wf s.build = true := by
  cases m with
  | mulvecT | loada => exact decide_eq_true h
  | mulvecA | squarea => rfl

/-- The decoder gives back what was issued (R67). -/
theorem MicroOp.issuable.decode_word {m : MicroOp} {s : State} (h : m.issuable s) :
    decodeMicroOp s.build.N (m.word s.build) = .ok m.toInstr := by
  have hdecode := decodeInvertsEncode s.build m.toInstr h.wf
  rwa [encode_toInstr] at hdecode

/-- The multiplier takes what was issued and applies it (R52, R66). -/
theorem takeMicroOp_word {m : MicroOp} {s : State} (h : m.issuable s) :
    takeMicroOp (m.word s.build) s = .next (applyMicro m s.takeUop) := by
  rw [takeMicroOp, h.decode_word]
  exact exec_of_runnable ((m.runnable_takeUop s).2 h.runnable)

/-- Two micro-operations that may be issued are the same if their words are. -/
theorem eq_of_word_eq {m n : MicroOp} {s : State} (hm : m.issuable s) (hn : n.issuable s)
    (h : m.word s.build = n.word s.build) : m.toInstr = n.toInstr := by
  have := hm.decode_word
  rw [h, hn.decode_word] at this
  exact (Except.ok.inj this).symm

/-! ### The discipline is kept -/

theorem one_le_N_of_admitted {c : Config} (h : admitted c = true) : 1 ≤ c.N := Config.one_le_N (admitted_ok h)

/-- A state without a word on the port, its sequencer idle, meets the discipline. -/
theorem State.IssueInv.of_idle {s : State} (ha : admitted s.build = true) (hu : s.uop = none) (hp : s.sq.phase = .idle) :
    s.IssueInv where
  build := ha
  port := by simp [hu]
  idle _ := hp
  phase := by simp [hp]
  index := by simp [hp]

/-- The phases of the squaring fallback in which `ma` is read (R97, R100). -/
def Phase.readsMa (p : Phase) : Prop := p = .fbAlign ∨ p = .fbBit ∨ p = .fbSq

/-- A line enters these phases by issuing LOADA only. -/
theorem Line.readsMa {c : Config} {k : Task} {q q' : Sequencer} {u : Option MicroOp} (h : Line c k q u q')
    (hread : q'.phase.readsMa) : q.phase.readsMa ∨ u = some (.loada q.tsel (c.N - 1)) := by
  cases h with
  | load => exact .inr rfl
  | align hp _ => exact .inl (.inl hp)
  | aligned hp _ => exact .inl (.inl hp)
  | bitSet hp _ => exact .inl (.inr (.inl hp))
  | bitClear hp _ => exact .inl (.inr (.inl hp))
  | square hp => exact .inl (.inr (.inr hp))
  | apply | linearApply => exact .inl hread
  | _ => simp [Phase.readsMa] at hread

/-- A line enters `APPLY` with an index of the table only. -/
theorem Line.index {c : Config} {k : Task} {q q' : Sequencer} {u : Option MicroOp} (h : Line c k q u q')
    (hq : q.phase = .apply → q.mi < c.N) (hp : q'.phase = .apply) : q'.mi < c.N := by
  cases h with
  | digit _ _ hmi => exact hmi
  | apply hp _ => exact hq hp
  | bitSet => simp only at hp; split at hp <;> cases hp
  | align hphase _ | linearApply hphase _ => cases hphase.symm.trans hp
  | _ => cases hp

/-- Under the discipline `ma` has been written in these phases, once the LOADA before them has left the port. -/
theorem State.IssueInv.maWritten {s : State} (hs : s.IssueInv) (hu : s.uop = none) (hp : s.sq.phase.readsMa) :
    s.maWritten = true := by
  rcases hs.phase hp with hw | ⟨t, w, -, hw⟩
  · exact hw
  · rw [hu] at hw
    cases hw

/-- Under the discipline a line issues only what may be issued (R95, R100). -/
theorem Line.issuable {s : State} {k : Task} {m : MicroOp} {q : Sequencer} (h : Line s.build k s.sq (some m) q)
    (hs : s.IssueInv) (hu : s.uop = none) : m.issuable s := by
  have hlast : s.build.N - 1 < s.build.N := by
    have := one_le_N_of_admitted hs.build
    omega
  have hma := hs.maWritten hu
  cases h with
  | apply hp _ => exact hs.index hp
  | load hp => exact hlast
  | align hp _ => exact hma (.inl hp)
  | bitSet hp _ => exact hma (.inr (.inl hp))
  | square hp => exact hma (.inr (.inr hp))
  | linearApply hp _ => exact hlast

theorem State.IssueInv.line {s : State} {k : Task} {u : Option MicroOp} {q : Sequencer} (h : Line s.build k s.sq u q)
    (hs : s.IssueInv) (hu : s.uop = none) (hk : s.task = some k) :
    State.IssueInv { s with uop := u.map (MicroOp.word s.build), sq := q } where
  build := hs.build
  port := by
    intro w hw
    obtain ⟨m, rfl, rfl⟩ := Option.map_eq_some_iff.1 hw
    refine ⟨m, encode_toInstr .., ?_⟩
    have hm := h.issuable hs hu
    cases m <;> exact hm
  idle := by simp [hk]
  phase := by
    intro hp
    rcases h.readsMa hp with hp | rfl
    · exact .inl (hs.maWritten hu hp)
    · exact .inr ⟨s.sq.tsel, _, encode_toInstr .., rfl⟩
  index := h.index hs.index

@[simp] theorem State.complete_sq (k : Task) (s : State) : (s.complete k).sq = s.sq := by
  cases k <;> simp [State.complete]

@[simp] theorem State.complete_uop (k : Task) (s : State) : (s.complete k).uop = s.uop := by
  cases k <;> simp [State.complete]

theorem State.IssueInv.seqLine {s : State} {k : Task} (hs : s.IssueInv) (hu : s.uop = none) (hk : s.task = some k) :
    (seqLine k s).IssueInv := by
  rcases seqLine_cases k hu with ⟨u, q, h, heq⟩ | ⟨-, heq⟩
  · exact heq ▸ hs.line h hu hk
  · refine .of_idle ?_ ?_ ?_
    · rw [(LineFrame.seqLine k hu).build]; exact hs.build
    · rw [heq, State.complete_uop]; exact hu
    · rw [heq, State.complete_sq]

theorem applyMicro_maWritten (m : MicroOp) {s : State} (h : s.maWritten = true) :
    (applyMicro m s).maWritten = true := by
  cases m with
  | loada => rfl
  | _ => exact h

/-- The multiplier keeps the discipline: a LOADA on the port writes `ma` (R94). -/
theorem State.IssueInv.applyMicro {s : State} {m : MicroOp} (hs : s.IssueInv) (hu : s.uop = some (m.word s.build))
    (hm : m.issuable s) : (applyMicro m s.takeUop).IssueInv := by
  have hframe := MicroFrame.applyMicro m s.takeUop
  refine ⟨?_, ?_, ?_, ?_, ?_⟩
  · rw [hframe.build]; exact hs.build
  · intro w hw
    rw [hframe.uop] at hw
    cases hw
  · rw [hframe.task, hframe.sq]; exact hs.idle
  · rw [hframe.sq]
    intro hp
    rcases hs.phase hp with hw | ⟨t, w, hload, hw⟩
    · exact .inl (applyMicro_maWritten m hw)
    · obtain rfl : MicroOp.word s.build (.loada t (s.build.N - 1)) = w := by
        simpa using (encode_toInstr s.build (.loada t (s.build.N - 1))).symm.trans hload
      have hlast : MicroOp.issuable s (.loada t (s.build.N - 1)) :=
        Nat.sub_lt (one_le_N_of_admitted hs.build) Nat.one_pos
      have heq := eq_of_word_eq hm hlast (Option.some.inj (hu.symm.trans hw))
      cases m with
      | loada => exact .inl rfl
      | _ => cases heq
  · rw [hframe.sq, hframe.build]; exact hs.index

theorem State.IssueInv.tick {s : State} (hs : s.IssueInv) : s.tick.IssueInv :=
  ⟨hs.build, fun w hw => by
    obtain ⟨m, he, hm⟩ := hs.port w hw
    exact ⟨m, he, by cases m <;> exact hm⟩, hs.idle, hs.phase, hs.index⟩

/-- A step keeps the discipline if what the engine does with an accepted command keeps it. -/
theorem stepWith_issueInv {run : Instr → State → Host.Outcome State Fault Refusal}
    (hrun : ∀ i s, i.isCommand = true → admitted s.build = true → s.uop = none → s.sq.phase = .idle →
      ∃ t, run i s = .next t ∧ t.IssueInv)
    {s : State} (hs : s.IssueInv) : ∃ t, stepWith run s = .next t ∧ t.IssueInv := by
  have ha := hs.build
  by_cases hreset : ∃ rest, s.inputs = .reset :: rest
  · obtain ⟨rest, hin⟩ := hreset
    exact ⟨_, stepWith_reset ha hin, .of_idle ha rfl rfl⟩
  have hin : ∀ rest, s.inputs ≠ .reset :: rest := fun rest h => hreset ⟨rest, h⟩
  cases hu : s.uop with
  | some w =>
    obtain ⟨m, he, hm⟩ := hs.port w hu
    obtain rfl : m.word s.build = w := by simpa using he
    exact ⟨_, (stepWith_microOp ha hin hu).trans (takeMicroOp_word hm), hs.applyMicro hu hm⟩
  | none =>
    cases hk : s.task with
    | some k => exact ⟨_, stepWith_line ha hin hu hk, hs.tick.seqLine hu hk⟩
    | none =>
      by_cases hcmd : ∃ w img rest, s.inputs = .command w img :: rest
      · obtain ⟨w, img, rest, hin⟩ := hcmd
        obtain ⟨t, ht, hinv⟩ := hrun _ (s.accept w img rest) (decodeCommand_isCommand w) ha hu (hs.idle hk)
        exact ⟨t, (stepWith_command ha hu hk hin).trans ht, hinv⟩
      · exact ⟨_, stepWith_nothing ha hin hu hk fun w img rest h => hcmd ⟨w, img, rest, h⟩, hs.tick⟩

theorem exec_issueInv (i : Instr) (s : State) (hi : i.isCommand = true) (ha : admitted s.build = true)
    (hu : s.uop = none) (hp : s.sq.phase = .idle) : ∃ t, exec i s = .next t ∧ t.IssueInv := by
  obtain ⟨t, ht, hframe⟩ := exec_command_frame hi s
  exact ⟨t, ht, .of_idle (hframe.build ▸ ha) (hframe.uop ▸ hu) (hframe.sq ▸ hp)⟩

theorem begin_issueInv (i : Instr) (s : State) (hi : i.isCommand = true) (ha : admitted s.build = true)
    (hu : s.uop = none) (hp : s.sq.phase = .idle) : ∃ t, begin i s = .next t ∧ t.IssueInv := by
  rcases begin_cases i s with h | ⟨x, d, k, h, -⟩
  · rw [h]
    exact exec_issueInv i s hi ha hu hp
  · exact ⟨_, h, .of_idle ha hu hp⟩

/-- Settles O42: the multiplier, each line of the sequencer and each command keep the discipline, and none is refused
under it. -/
theorem sequencerNeverRefused : Obligations.SequencerNeverRefused := fun _ hs =>
  ⟨hs.readsWrittenMa, stepWith_issueInv begin_issueInv hs, stepWith_issueInv exec_issueInv hs⟩

/-! ### The counters stay in their widths -/

theorem Sequencer.fits_iff (c : Config) (q : Sequencer) :
    q.fits c = true ↔ q.mi ≤ c.N ∧ q.rep.toNat < 2 ^ c.W ∧ q.k.toNat ≤ c.W := by
  simp [Sequencer.fits, and_assoc]

/-- Counting down from a number that is not zero does not wrap. -/
theorem toNat_sub_one_add_one {n : Nat} {v : BitVec n} (h : v ≠ 0#n) : (v - 1#n).toNat + 1 = v.toNat := by
  have hv : v.toNat ≠ 0 := fun h0 => h (BitVec.eq_of_toNat_eq (by rw [h0, BitVec.toNat_zero]))
  have hlt := v.isLt
  have hone : (1#n).toNat = 1 := by rw [BitVec.toNat_ofNat, Nat.mod_eq_of_lt (by omega)]
  rw [BitVec.toNat_sub_of_le (BitVec.le_def.2 (by omega)), hone]
  omega

theorem toNat_sub_one_lt {n : Nat} {v : BitVec n} (h : v ≠ 0#n) : (v - 1#n).toNat < v.toNat :=
  Nat.lt_of_succ_le (toNat_sub_one_add_one h).le

/-- Every line keeps the counters in their widths (R27): a digit is below `2^W`, `W` fits seven bits, and `sq.mi` is
counted up from an index of the table only. -/
theorem Line.fits {c : Config} {k : Task} {q q' : Sequencer} {u : Option MicroOp} (h : Line c k q u q')
    (hW : c.W ≤ 64) (hq : q.phase = .apply → q.mi < c.N) (hfits : q.fits c = true) : q'.fits c = true := by
  rw [Sequencer.fits_iff] at hfits ⊢
  obtain ⟨hmi, hrep, hk⟩ := hfits
  cases h with
  | start => exact ⟨Nat.zero_le _, hrep, hk⟩
  | digit hp hv hlt =>
    refine ⟨hmi, ?_, hk⟩
    rw [BitVec.toNat_ofNat]
    exact (Nat.mod_le ..).trans_lt (Nat.mod_lt _ (Nat.two_pow_pos _))
  | apply hp hne => exact ⟨hmi, (toNat_sub_one_lt hne).trans hrep, hk⟩
  | applied hp _ => exact ⟨hq hp, hrep, hk⟩
  | load => exact ⟨hmi, hrep, by rw [BitVec.toNat_ofNat, Nat.mod_eq_of_lt (by omega)]⟩
  | align hp hne => exact ⟨hmi, hrep, (toNat_sub_one_lt hne).le.trans hk⟩
  | _ => exact ⟨hmi, hrep, hk⟩

/-- A step keeps the bounds on the counters. -/
theorem stepCase_seqInv {s t : State} (hs : s.SeqInv) (h : StepCase s t) : t.SeqInv := by
  obtain ⟨ha, hfits, hindex⟩ := hs
  have hW : s.build.W ≤ 64 := ((admitted_iff _).1 ha).1.2.1
  have hsame : t.build = s.build → t.sq = s.sq → t.SeqInv := fun hb hq =>
    ⟨hb ▸ ha, by rw [hb, hq]; exact hfits, by rw [hb, hq]; exact hindex⟩
  cases h with
  | reset rest hin ht =>
    subst ht
    exact ⟨ha, (Sequencer.fits_iff ..).2 ⟨Nat.zero_le _, Nat.two_pow_pos _, Nat.zero_le _⟩, fun hp => by cases hp⟩
  | microOp w m hu hd hm ht =>
    subst ht
    exact hsame (MicroFrame.applyMicro ..).build (MicroFrame.applyMicro ..).sq
  | line k hu hk ht =>
    rcases seqLine_cases k (s := s.tick) hu with ⟨u, q, hline, heq⟩ | ⟨-, heq⟩
    · rw [ht, heq]
      exact ⟨ha, hline.fits hW hindex hfits, hline.index hindex⟩
    · have hb : t.build = s.build := by rw [ht, (LineFrame.seqLine k (s := s.tick) hu).build]; rfl
      have hq : t.sq = { s.sq with phase := .idle } := by rw [ht, heq, State.complete_sq]; rfl
      exact ⟨hb ▸ ha, by rw [hb, hq]; exact hfits, fun hp => by rw [hq] at hp; cases hp⟩
  | command w img rest hu hk hin ht =>
    have hframe := commandFrame_of_exec (decodeCommand_isCommand w) ht
    exact hsame hframe.build hframe.sq
  | jump w img rest x d k hu hk hin ht hx => exact hsame (by rw [ht]; rfl) (by rw [ht]; rfl)
  | nothing hu hk ht => exact hsame (by rw [ht]; rfl) (by rw [ht]; rfl)

/-- Settles O59: the bounds are kept, and `N` is below the range of the register of `sq.mi`. -/
theorem sequencerRegistersFit : Obligations.SequencerRegistersFit := by
  intro s t hs h
  have ht := stepCase_seqInv hs (stepCase_of_next h).2
  obtain ⟨hmi, hrep, hk⟩ := (Sequencer.fits_iff ..).1 ht.fits
  have hwidth : t.build.N + 1 ≤ 2 ^ miRegWidth t.build.N := le_two_pow_miw (t.build.N + 1)
  exact ⟨ht, hmi, by omega, hrep, hk⟩

end Sys2Proof.Machine
end

section
/-! PROOFS. The non-zero invariant (R32): `A` and its powers send only zero to zero, a seed gives no zero in an admitted
build, and RESTORE refuses one. The running matrix stores a power of `A` from its first LOADA on. -/

namespace Sys2Proof.Machine

/-! ### Micro-operations and jumps -/

/-- The running matrix, once written, stores a power of `A`. -/
def State.ScratchInv (s : State) : Prop := s.maWritten = true → StoresPower s.ma

theorem State.ScratchInv.applyMicro {s : State} (hs : s.ScratchInv) (m : MicroOp) : (applyMicro m s).ScratchInv := by
  cases m with
  | mulvecT => exact hs
  | mulvecA => exact hs
  | loada => exact fun _ => ⟨_, table_eq_matrixOf ..⟩
  | squarea =>
    intro hw
    obtain ⟨p, hp⟩ := hs hw
    exact ⟨2 * p, (congrArg squareMat hp).trans (squareMat_matrixOf_stepA_iterate p)⟩

theorem State.ScratchInv.jump {s : State} (hs : s.ScratchInv) (t : TableSel) (v : BitVec 64) :
    (jump t v s).ScratchInv := by
  rw [Machine.jump]
  induction jumpTrace s.build t v generalizing s with
  | nil => exact hs
  | cons m ms ih => exact ih (hs.applyMicro m)

theorem ShiftReg.ne_zero_of_toVec_eq {x y : ShiftReg} {n : Nat} (h : y.toVec = stepA^[n] x.toVec)
    (hx : x ≠ ShiftReg.zero) : y ≠ ShiftReg.zero := by
  rwa [Ne, ← ShiftReg.toVec_eq_zero, h, stepA_iterate_eq_zero_iff, ShiftReg.toVec_eq_zero]

/-- No micro-operation that runs makes `x` zero: each applies a power of `A`. -/
theorem applyMicro_x_ne_zero {m : MicroOp} {s : State} (hm : m.runnable s) (hs : s.ScratchInv)
    (hx : s.x ≠ ShiftReg.zero) : (applyMicro m s).x ≠ ShiftReg.zero := by
  cases m with
  | mulvecT t mi => exact ShiftReg.ne_zero_of_toVec_eq (applyMicro_mulvecT_toVec t mi s) hx
  | mulvecA =>
    obtain ⟨p, hp⟩ := hs hm
    exact ShiftReg.ne_zero_of_toVec_eq (applyMicro_mulvecA_toVec hp) hx
  | loada => exact hx
  | squarea => exact hx

theorem jump_x_ne_zero (t : TableSel) (v : BitVec 64) {s : State} (hN : 1 ≤ s.build.N) (hx : s.x ≠ ShiftReg.zero) :
    (jump t v s).x ≠ ShiftReg.zero :=
  ShiftReg.ne_zero_of_toVec_eq (jump_toVec t v hN) hx

/-! ### Commands -/

theorem seeded_ne_zero {c : Config} (ha : admitted c = true) (seed : Operand) : (seeded c seed).1 ≠ ShiftReg.zero :=
  admitted_nonDegenerate ha _ _

theorem imgX_ne_zero {m : Memory} (h : imageBad m = false) : imgX m ≠ ShiftReg.zero := fun hx => by
  rw [(imageBad_iff m).2 (.inr (.inr hx))] at h
  cases h

/-- A command that answers OK leaves no zero in a ready engine (R32). -/
theorem okState_x_ne_zero {i : Instr} {s : State} (ha : admitted s.build = true)
    (hx : s.ready = true → s.x ≠ ShiftReg.zero) (hok : answeredStatus i s = .ok) (hready : (okState i s).ready = true) :
    (okState i s).x ≠ ShiftReg.zero := by
  have hN := one_le_N_of_admitted ha
  cases i with
  | init a b c =>
    simp only [okState.eq_def, State.finishInit_x]
    exact jump_x_ne_zero _ _ (by simpa using hN) (jump_x_ne_zero _ _ hN (seeded_ne_zero ha a))
  | next => exact fun h => hx hready (ShiftReg.advance_eq_zero h)
  | skip n =>
    simp only [okState.eq_def, State.finishSkip_x, State.finishSkip_ready, jump_ready] at hready ⊢
    exact jump_x_ne_zero _ _ hN (hx hready)
  | skipsub n =>
    simp only [okState.eq_def, State.finishSkipsub_x, State.finishSkipsub_ready, jump_ready] at hready ⊢
    exact jump_x_ne_zero _ _ hN (hx hready)
  | restore =>
    refine imgX_ne_zero (Bool.eq_false_iff.2 fun hbad => ?_)
    rw [answeredStatus_restore, if_pos hbad] at hok
    cases hok
  | _ => exact hx hready

theorem okState_scratchInv {s : State} (i : Instr) (hs : s.ScratchInv) : (okState i s).ScratchInv := by
  have hcongr : ∀ {t u : State}, u.ScratchInv → t.maWritten = u.maWritten → t.ma = u.ma → t.ScratchInv := by
    intro t u hu hw hma
    rwa [State.ScratchInv, hw, hma]
  cases i with
  | init a b c =>
    have hseed : (s.seedExpand a).ScratchInv := hs
    exact hcongr ((hseed.jump .sub b).jump .step c) (State.finishInit_maWritten ..) (State.finishInit_ma ..)
  | skip n => exact hcongr (hs.jump .step n) (State.finishSkip_maWritten ..) (State.finishSkip_ma ..)
  | skipsub n => exact hcongr (hs.jump .sub n) (State.finishSkipsub_maWritten ..) (State.finishSkipsub_ma ..)
  | _ => exact hs

/-- A command keeps the non-zero invariant. -/
theorem exec_command_inv {i : Instr} {s t : State} (hi : i.isCommand = true) (h : exec i s = .next t) (hs : s.Inv) :
    t.Inv := by
  have hframe := commandFrame_of_exec hi h
  have hidle : t.busy ≠ true := by simp [State.busy, hframe.task]
  have hx : s.ready = true → s.x ≠ ShiftReg.zero := fun hready => hs.nonzero (.inl hready)
  refine ⟨hframe.build ▸ hs.build, fun hactive => ?_, ?_⟩
  · have hready := hactive.resolve_right hidle
    rcases exec_cases h with ⟨-, f, rfl⟩ | ⟨-, hok, rfl⟩ | ⟨m, rfl, -, -⟩
    · exact hx hready
    · exact okState_x_ne_zero hs.build hx hok hready
    · cases m <;> cases hi
  · rcases exec_cases h with ⟨-, f, rfl⟩ | ⟨-, -, rfl⟩ | ⟨m, rfl, -, -⟩
    · exact hs.scratch
    · exact okState_scratchInv i hs.scratch
    · cases m <;> cases hi

/-! ### Steps -/

/-- A step keeps the non-zero invariant. -/
theorem stepCase_inv {s t : State} (hs : s.Inv) (h : StepCase s t) : t.Inv := by
  cases h with
  | reset rest hin ht =>
    subst ht
    refine ⟨hs.build, fun hactive => ?_, fun hw => ?_⟩
    · rcases hactive with hready | hbusy
      · cases hready
      · cases hbusy
    · cases hw
  | microOp w m hu hd hm ht =>
    subst ht
    have hframe := MicroFrame.applyMicro m s.takeUop
    have hscratch : s.takeUop.ScratchInv := hs.scratch
    refine ⟨hframe.build ▸ hs.build, fun hactive => ?_, hscratch.applyMicro m⟩
    rw [State.busy, hframe.ready, hframe.task] at hactive
    exact applyMicro_x_ne_zero ((m.runnable_takeUop s).2 hm) hscratch (hs.nonzero hactive)
  | line k hu hk ht =>
    have hframe := LineFrame.seqLine k (s := s.tick) hu
    rw [← ht] at hframe
    refine ⟨hframe.build ▸ hs.build, fun _ => ?_, ?_⟩
    · rw [hframe.x]
      exact hs.nonzero (.inr (by simp [State.busy, hk]))
    · rw [hframe.maWritten, hframe.ma]
      exact hs.scratch
  | command w img rest hu hk hin ht =>
    exact exec_command_inv (decodeCommand_isCommand w) ht ⟨hs.build, hs.nonzero, hs.scratch⟩
  | jump w img rest x d k hu hk hin ht hx =>
    subst ht
    refine ⟨hs.build, fun _ => ?_, hs.scratch⟩
    rcases hx with ⟨hready, rfl⟩ | ⟨seed, rfl⟩
    · exact hs.nonzero (.inl hready)
    · exact seeded_ne_zero hs.build seed
  | nothing hu hk ht =>
    subst ht
    exact ⟨hs.build, hs.nonzero, hs.scratch⟩

/-- Settles O54: every case of a step keeps the invariant, and the discipline is kept by O42. -/
theorem nonZeroInvariantKept : Obligations.NonZeroInvariantKept := by
  intro s t hs h
  refine ⟨stepCase_inv hs (stepCase_of_next h).2, fun hissue => ?_⟩
  obtain ⟨-, ⟨u, hu, hmicro⟩, v, hv, hstep⟩ := sequencerNeverRefused s hissue
  rcases h with h | h
  · cases hv.symm.trans h
    exact hstep
  · cases hu.symm.trans h
    exact hmicro

end Sys2Proof.Machine
end

section
/-! PROOFS. INIT, SKIP and SKIPSUB (R111, R115, R117) by the contract of their jumps, and what they are in NEXTs (R117,
R120, R121). -/

namespace Sys2Proof.Machine

/-! ### Seeds and the Weyl register -/

theorem lo32_toNat (n : Operand) : (lo32 n).toNat = n.toNat % 2 ^ 32 := by
  rw [lo32, BitVec.extractLsb'_toNat, Nat.shiftRight_zero]

/-- Settles O11: the 32-bit sum is the sum modulo `2^32`, and so is the low half of the distance. -/
theorem weylUpdate : Obligations.WeylUpdate := by
  intro d n
  have hconst : (362437 : Word).toNat = 362437 := rfl
  rw [BitVec.toNat_add, BitVec.toNat_mul, lo32_toNat, hconst]
  omega

/-- `n` times the Weyl constant, as the update of a skip (R116). -/
theorem lo32_mul_weyl (n : Operand) : lo32 n * Config.weyl = BitVec.ofNat 32 n.toNat * Config.weyl :=
  congrArg (· * Config.weyl) (BitVec.eq_of_toNat_eq (by rw [lo32_toNat, BitVec.toNat_ofNat]))

/-- The two halves of a 64-bit operand determine it (R10). -/
theorem eq_of_halves {m n : Operand} (hlo : lo32 m = lo32 n) (hhi : hi32 m = hi32 n) : m = n := by
  have hsplit : ∀ n : Operand, n.toNat = (lo32 n).toNat + 2 ^ 32 * (hi32 n).toNat := by
    intro n
    have := n.isLt
    rw [lo32_toNat, hi32, BitVec.extractLsb'_toNat, Nat.shiftRight_eq_div_pow]
    omega
  exact BitVec.eq_of_toNat_eq (by rw [hsplit m, hsplit n, hlo, hhi])

/-- An odd multiplier of the seed split, with its inverse modulo `2^32`, solves for the scrambled half (R112). -/
theorem mul_xor_eq_iff {c inv k : Word} (hinv : c * inv = 1#32) (w t : Word) :
    c * (w ^^^ k) = t ↔ w = (inv * t) ^^^ k := by
  have hleft : ∀ v : Word, inv * (c * v) = v := fun v => by
    rw [← BitVec.mul_assoc, BitVec.mul_comm inv, hinv, BitVec.one_mul]
  have hright : ∀ v : Word, c * (inv * v) = v := fun v => by rw [← BitVec.mul_assoc, hinv, BitVec.one_mul]
  constructor
  · rintro rfl
    rw [hleft, BitVec.xor_assoc, BitVec.xor_self, BitVec.xor_zero]
  · rintro rfl
    rw [BitVec.xor_assoc, BitVec.xor_self, BitVec.xor_zero, hright]

/-- Settles O15: the constants are odd, so each half of the seed is solved for, and the halves are the seed. -/
theorem seedSplit : Obligations.SeedSplit := by
  have h0 : ∀ seed t, seedT0 seed = t ↔ lo32 seed = (0x70228A7D * t) ^^^ Config.seedXor0 := fun seed t =>
    mul_xor_eq_iff (by decide) (lo32 seed) t
  have h1 : ∀ seed t, seedT1 seed = t ↔ hi32 seed = (0x3F3DB713 * t) ^^^ Config.seedXor1 := fun seed t =>
    mul_xor_eq_iff (by decide) (hi32 seed) t
  refine ⟨fun _ => ⟨rfl, rfl⟩, fun t0 t1 => ?_⟩
  simp only [h0, h1]
  refine ⟨((0x3F3DB713 * t1) ^^^ Config.seedXor1) ++ ((0x70228A7D * t0) ^^^ Config.seedXor0), ⟨?_, ?_⟩, ?_⟩
  · exact (BitVec.extractLsb'_append_eq_of_add_le (by decide)).trans BitVec.extractLsb'_eq_self
  · exact (BitVec.extractLsb'_append_eq_of_le (by decide)).trans BitVec.extractLsb'_eq_self
  · rintro seed ⟨hlo, hhi⟩
    refine eq_of_halves (hlo.trans ?_) (hhi.trans ?_)
    · exact ((BitVec.extractLsb'_append_eq_of_add_le (by decide)).trans BitVec.extractLsb'_eq_self).symm
    · exact ((BitVec.extractLsb'_append_eq_of_le (by decide)).trans BitVec.extractLsb'_eq_self).symm

/-! ### The three commands that jump -/

theorem unit_step : unit .step = 1 := rfl

theorem unit_sub : unit .sub = 2 ^ 67 := rfl

/-- Settles O7: the two jumps by their contract, with the fixed start values and the seed split written out. -/
theorem initConstructs : Obligations.InitConstructs := by
  intro s seed subsequence offset hok s0 s1 m
  have hN := Config.one_le_N hok
  have hm : m = seeded s.build seed := rfl
  obtain ⟨acc, ma, mb, mw, hsub⟩ := jump_eq .sub subsequence (s := s.seedExpand seed) hN
  obtain ⟨acc', ma', mb', mw', hstep⟩ := jump_eq .step offset (s := jump .sub subsequence (s.seedExpand seed))
    (by simpa using hN)
  refine ⟨acc', ma', mb', mw', ?_⟩
  rw [exec_init, hstep, hsub, ShiftReg.toVec_ofVec, unit_step, unit_sub, Nat.mul_one, hm]
  rfl

/-- Settles O9: the jump by its contract, then the Weyl update. -/
theorem skipAdvances : Obligations.SkipAdvances := by
  refine fun s n hok => ⟨fun hready => ?_, exec_skip_notReady n⟩
  obtain ⟨acc, ma, mb, mw, hjump⟩ := jump_eq .step n (Config.one_le_N hok)
  refine ⟨acc, ma, mb, mw, ?_⟩
  rw [exec_skip n hready, hjump, unit_step, Nat.mul_one]
  rfl

/-- Settles O10: the jump by its contract. -/
theorem skipsubAdvances : Obligations.SkipsubAdvances := by
  refine fun s n hok => ⟨fun hready => ?_, exec_skipsub_notReady n⟩
  obtain ⟨acc, ma, mb, mw, hjump⟩ := jump_eq .sub n (Config.one_le_N hok)
  refine ⟨acc, ma, mb, mw, ?_⟩
  rw [exec_skipsub n hready, hjump, unit_sub]
  rfl

/-- Settles O8: the contract of INIT names no register of the state before it. -/
theorem initReadsNoPriorState : Obligations.InitReadsNoPriorState := by
  intro s s' seed subsequence offset hok hbuild
  obtain ⟨acc, ma, mb, mw, h⟩ := initConstructs s seed subsequence offset hok
  obtain ⟨acc', ma', mb', mw', h'⟩ := initConstructs s' seed subsequence offset (hbuild ▸ hok)
  rw [hbuild] at h'
  exact ⟨_, _, h, h', rfl, rfl, rfl, rfl, rfl, rfl⟩

/-! ### Sequences of commands -/

theorem execAll_cons {i : Instr} {is : List Instr} {s t : State} (h : exec i s = .next t) :
    execAll (i :: is) s = execAll is t := by
  rw [execAll, h]

theorem execAll_append {is js : List Instr} {s t : State} (h : execAll is s = .next t) :
    execAll (is ++ js) s = execAll js t := by
  induction is generalizing s with
  | nil => cases h; rfl
  | cons i is ih =>
    rw [List.cons_append, execAll]
    rw [execAll] at h
    cases hi : exec i s with
    | next u => rw [hi] at h; exact ih h
    | fault r => cases r
    | refused r => rw [hi] at h; cases h

/-- A NEXT and `n` NEXTs from it are `n + 1` NEXTs: the registers of a ready engine after `n` of them (R110). -/
theorem execAll_replicate_next (n : Nat) {s : State} (h : s.ready = true) :
    ∃ u, execAll (List.replicate n .next) s = .next u ∧ u.x = ShiftReg.ofVec (stepA^[n] s.x.toVec) ∧
      u.d = s.d + BitVec.ofNat 32 n * Config.weyl ∧ u.gcF = s.gcF ∧ u.gcD = s.gcD ∧ u.ready = true := by
  induction n generalizing s with
  | zero => exact ⟨s, rfl, by simp, by simp, rfl, rfl, h⟩
  | succ n ih =>
    obtain ⟨u, hu, hx, hd, hF, hD, hready⟩ := ih (s := okState .next s) h
    refine ⟨u, ?_, ?_, ?_, hF, hD, hready⟩
    · rw [List.replicate_succ, execAll_cons (exec_ready rfl h), hu]
    · rw [hx, Function.iterate_succ_apply, stepA_toVec]
      rfl
    · have hnext : (okState .next s).d = s.d + Config.weyl := rfl
      rw [hd, hnext, BitVec.ofNat_add, BitVec.add_mul, BitVec.one_mul, BitVec.add_assoc,
        BitVec.add_comm Config.weyl]

/-- One NEXT from two ready engines that agree in all that NEXT reads and keeps (R110). -/
theorem exec_next_congr {s s' : State} (h : s.ready = true) (h' : s'.ready = true) (hx : s.x = s'.x) (hd : s.d = s'.d)
    (hF : s.gcF = s'.gcF) (hD : s.gcD = s'.gcD) :
    ∃ t t', exec .next s = .next t ∧ exec .next s' = .next t' ∧ t.x = t'.x ∧ t.d = t'.d ∧ t.gcF = t'.gcF ∧
      t.gcD = t'.gcD ∧ t.ready = t'.ready ∧ t.rsp = t'.rsp :=
  ⟨_, _, exec_next h, exec_next h', congrArg ShiftReg.advance hx, congrArg (· + Config.weyl) hd, hF, hD, h.trans h'.symm,
    by simp only [State.respond_rsp, hx, hd]⟩

/-- SKIP on the registers of a ready engine (R115). -/
theorem exec_skip_registers (n : Operand) {s : State} (hok : s.build.ok = true) (hready : s.ready = true) :
    ∃ t, exec (.skip n) s = .next t ∧ t.x = ShiftReg.ofVec (stepA^[n.toNat] s.x.toVec) ∧
      t.d = s.d + lo32 n * Config.weyl ∧ t.gcF = s.gcF ∧ t.gcD = s.gcD ∧ t.ready = true := by
  obtain ⟨_, _, _, _, h⟩ := (skipAdvances s n hok).1 hready
  exact ⟨_, h, rfl, rfl, rfl, rfl, hready⟩

/-- SKIPSUB on the registers of a ready engine (R117). -/
theorem exec_skipsub_registers (n : Operand) {s : State} (hok : s.build.ok = true) (hready : s.ready = true) :
    ∃ t, exec (.skipsub n) s = .next t ∧ t.x = ShiftReg.ofVec (stepA^[n.toNat * 2 ^ 67] s.x.toVec) ∧ t.d = s.d ∧
      t.gcF = s.gcF ∧ t.gcD = s.gcD ∧ t.ready = true := by
  obtain ⟨_, _, _, _, h⟩ := (skipsubAdvances s n hok).1 hready
  exact ⟨_, h, rfl, rfl, rfl, rfl, hready⟩

/-- INIT on the registers of any engine (R111). -/
theorem exec_init_registers (seed subsequence offset : Operand) {s : State} (hok : s.build.ok = true) :
    ∃ t, exec (.init seed subsequence offset) s = .next t ∧
      t.x = ShiftReg.ofVec (stepA^[offset.toNat] (stepA^[subsequence.toNat * 2 ^ 67] (seeded s.build seed).1.toVec)) ∧
      t.d = (seeded s.build seed).2 + lo32 offset * Config.weyl ∧ t.gcF = none ∧ t.gcD = none ∧ t.ready = true := by
  obtain ⟨_, _, _, _, h⟩ := initConstructs s seed subsequence offset hok
  exact ⟨_, h, rfl, rfl, rfl, rfl, rfl⟩

/-- Settles O12: `n` steps of `A` and `n` Weyl steps either way, and the same NEXT after both. -/
theorem skipEqualsNexts : Obligations.SkipEqualsNexts := by
  intro s n hok hready
  obtain ⟨t, ht, htx, htd, htF, htD, htready⟩ := exec_skip_registers n hok hready
  obtain ⟨u, hu, hux, hud, huF, huD, huready⟩ := execAll_replicate_next n.toNat hready
  rw [← lo32_mul_weyl] at hud
  have hx := htx.trans hux.symm
  have hd := htd.trans hud.symm
  refine ⟨⟨t, u, ht, hu, hx, hd, htF, huF, htD, huD⟩, ?_⟩
  obtain ⟨t', u', ht', hu', hsame⟩ :=
    exec_next_congr htready huready hx hd (htF.trans huF.symm) (htD.trans huD.symm)
  refine ⟨t', u', ?_, ?_, hsame⟩
  · rw [execAll_cons ht, execAll_cons ht', execAll]
  · rw [List.replicate_succ', execAll_append hu, execAll_cons hu', execAll]

/-- Settles O13: `2^67 * n` steps of `A` either way, and a multiple of `2^32` Weyl steps. -/
theorem skipsubEqualsNexts : Obligations.SkipsubEqualsNexts := by
  intro s n hok hready
  obtain ⟨t, ht, htx, htd, -, -, -⟩ := exec_skipsub_registers n hok hready
  obtain ⟨u, hu, hux, hud, -, -, -⟩ := execAll_replicate_next (2 ^ 67 * n.toNat) hready
  have hweyl : BitVec.ofNat 32 (2 ^ 67 * n.toNat) = 0#32 :=
    BitVec.eq_of_toNat_eq (by rw [BitVec.toNat_ofNat, BitVec.toNat_zero]; omega)
  rw [hweyl, BitVec.zero_mul, BitVec.add_zero] at hud
  rw [Nat.mul_comm] at hux
  exact ⟨t, u, ht, hu, htx.trans hux.symm, htd.trans hud.symm⟩

/-- Settles O14: an INIT without jumps, then the two skips by their contracts. -/
theorem initComposes : Obligations.InitComposes := by
  intro s seed subsequence offset hok
  have hbuild : ∀ {i : Instr} {s t : State}, i.isCommand = true → exec i s = .next t → s.build.ok = true →
      t.build.ok = true := fun hi h hok => (commandFrame_of_exec hi h).build ▸ hok
  obtain ⟨t, ht, htx, htd, htF, htD, htready⟩ := exec_init_registers seed subsequence offset hok
  obtain ⟨u, hu, hux, hud, huF, huD, huready⟩ := exec_init_registers seed 0 0 hok
  have huok := hbuild rfl hu hok
  obtain ⟨v, hv, hvx, hvd, hvF, hvD, hvready⟩ := exec_skipsub_registers subsequence huok huready
  obtain ⟨w, hw, hwx, hwd, hwF, hwD, hwready⟩ := exec_skip_registers offset (hbuild rfl hv huok) hvready
  refine ⟨t, w, ht, ?_, ?_, ?_, ?_, ?_, ?_⟩
  · rw [execAll_cons hu, execAll_cons hv, execAll_cons hw, execAll]
  · rw [htx, hwx, hvx, hux, ShiftReg.toVec_ofVec, ShiftReg.toVec_ofVec]
    rfl
  · have hzero : lo32 0 * Config.weyl = 0#32 := rfl
    rw [htd, hwd, hvd, hud, hzero, BitVec.add_zero]
  · rw [htF, hwF, hvF, huF]
  · rw [htD, hwD, hvD, huD]
  · rw [htready, hwready]

end Sys2Proof.Machine
end

section
/-! PROOFS. SAVE and RESTORE together (R137, R139), and the image presented with a RESTORE (R45, R60). -/

namespace Sys2Proof.Machine

/-- Settles O24: the step's own acceptance puts the presented image into the buffer. -/
theorem presentedImageIsRestored : Obligations.PresentedImageIsRestored := by
  intro s w img rest ha hwf hu hk hin hop
  have hdecode : decodeCommand w = .restore := by rw [decodeCommand, hop]; rfl
  have himg : (s.accept w img rest).img = loadImg s.img img := by
    simp only [State.accept, sampledImg, hdecode, if_true]
  refine ⟨s.accept w img rest, ?_, ?_, rfl⟩
  · rw [step, stepWith_command ha hu hk hin, hdecode]
  · rw [himg, imgPort_loadImg hwf]

/-! ### The saved image -/

/-- SAVE answers the image of its state (R48, R136). -/
theorem exec_save_image {s : State} (hready : s.ready = true) (hwf : Memory.wf s.img = true) :
    ∃ t r, exec .save s = .next t ∧ t.rsp = some r ∧ r.status = .ok ∧ r.img = s.savedImage := by
  refine ⟨_, _, exec_save hready, State.answer_rsp .., rfl, ?_⟩
  simp only [saveImage_eq_loadImg, imgPort_loadImg hwf]

theorem flagWord_le_one (b : Bool) : ¬ 1 < flagWord b := by cases b <;> decide

theorem flagWord_eq_one_iff (b : Bool) : flagWord b = 1#32 ↔ b = true := by cases b <;> decide

/-- A slot is read back from its flag word and its value (R48). -/
theorem slot_of_flagWord {n : Nat} (g : Option (BitVec n)) :
    (if flagWord g.isSome = 1#32 then some (g.getD 0#n) else none) = g := by
  simp only [flagWord_eq_one_iff]
  cases g <;> rfl

/-- RESTORE of a saved image: it is not refused, and each of its fields is read back (R137, R139). -/
theorem exec_restore_savedImage {s s' : State} {p : BitVec 352} (hx : s.x ≠ ShiftReg.zero) (hp : p = s.savedImage)
    (hport : imgPort s'.img = p) :
    ∃ u, exec .restore s' = .next u ∧ u.x = s.x ∧ u.d = s.d ∧ u.gcF = s.gcF ∧ u.gcD = s.gcD ∧ u.ready = true := by
  obtain ⟨h0, h1, h2, h3, h4, hd, hff, hfd, hF, hD⟩ := s.savedImage_fields
  rw [hp] at hport
  have hX : imgX s'.img = s.x := by rw [imgX_eq, hport, h0, h1, h2, h3, h4]
  have hgood : imageBad s'.img = false := by
    refine Bool.eq_false_iff.2 (mt (imageBad_iff _).1 ?_)
    rw [hX, imgFlagF_eq, imgFlagD_eq, hport, hff, hfd]
    exact not_or.2 ⟨flagWord_le_one _, not_or.2 ⟨flagWord_le_one _, hx⟩⟩
  refine ⟨_, exec_restore_good hgood, ?_, ?_, ?_, ?_, State.respond_ready ..⟩
  · rw [State.respond_x, hX]
  · rw [State.respond_d, imgD_eq, hport, hd]
  · rw [State.respond_gcF, imgGcF_eq, hport, hff, hF]
    exact slot_of_flagWord s.gcF
  · rw [State.respond_gcD, imgGcD_eq, hport, hfd, hD]
    exact slot_of_flagWord s.gcD

/-- Settles O25: SAVE answers the saved image, which the buffer of the other block then holds. -/
theorem saveRestoreRoundTrip : Obligations.SaveRestoreRoundTrip := by
  intro s hready hx hwf
  obtain ⟨t, r, ht, hrsp, hok, himg⟩ := exec_save_image hready hwf
  refine ⟨t, r, ht, hrsp, hok, fun s' hwf' => ?_⟩
  rw [hready]
  have hport := imgPort_loadImg hwf' r.img
  generalize loadImg s'.img r.img = m at hport ⊢
  exact exec_restore_savedImage hx himg hport

/-! ### An image saved again -/

/-- Two vectors that agree below a bit and in the field that begins there agree below the end of the field. -/
theorem extractLsb'_zero_add {n w : Nat} {p q : BitVec w} (m : Nat) (hlow : p.extractLsb' 0 n = q.extractLsb' 0 n)
    (hfield : p.extractLsb' n m = q.extractLsb' n m) : p.extractLsb' 0 (n + m) = q.extractLsb' 0 (n + m) := by
  refine BitVec.eq_of_getLsbD_eq fun i hi => ?_
  by_cases h : i < n
  · have := congrArg (·.getLsbD i) hlow
    simpa [h, hi] using this
  · have := congrArg (·.getLsbD (i - n)) hfield
    have hsub : i - n < m := by omega
    have hadd : n + (i - n) = i := by omega
    simpa [hsub, hadd, hi] using this

/-- The ten fields of an image determine it (R48). -/
theorem eq_of_image_fields {p q : BitVec 352} (h0 : p.extractLsb' 0 32 = q.extractLsb' 0 32)
    (h1 : p.extractLsb' 32 32 = q.extractLsb' 32 32) (h2 : p.extractLsb' 64 32 = q.extractLsb' 64 32)
    (h3 : p.extractLsb' 96 32 = q.extractLsb' 96 32) (h4 : p.extractLsb' 128 32 = q.extractLsb' 128 32)
    (h5 : p.extractLsb' 160 32 = q.extractLsb' 160 32) (h6 : p.extractLsb' 192 32 = q.extractLsb' 192 32)
    (h7 : p.extractLsb' 224 32 = q.extractLsb' 224 32) (h8 : p.extractLsb' 256 32 = q.extractLsb' 256 32)
    (h9 : p.extractLsb' 288 64 = q.extractLsb' 288 64) : p = q := by
  have hall := extractLsb'_zero_add 64 (extractLsb'_zero_add 32 (extractLsb'_zero_add 32 (extractLsb'_zero_add 32
    (extractLsb'_zero_add 32 (extractLsb'_zero_add 32 (extractLsb'_zero_add 32 (extractLsb'_zero_add 32
      (extractLsb'_zero_add 32 h0 h1) h2) h3) h4) h5) h6) h7) h8) h9
  exact (BitVec.extractLsb'_eq_self.symm.trans hall).trans BitVec.extractLsb'_eq_self

/-- The flag word of a slot that was read from an accepted flag word is that word (R48). -/
theorem flagWord_isSome_slot {n : Nat} {f : Word} (hf : ¬ 1 < f) (v : BitVec n) :
    flagWord (if f = 1#32 then some v else none).isSome = f := by
  have hcases : f = 1#32 ∨ f = 0#32 := by bv_omega
  rcases hcases with rfl | rfl <;> rfl

/-- The value of a slot that was read from an accepted flag word is the one in the image exactly if it counted or was
zero. -/
theorem getD_slot_eq_iff {n : Nat} {f : Word} (hf : ¬ 1 < f) (v : BitVec n) :
    (if f = 1#32 then some v else none).getD 0#n = v ↔ (f = 0#32 → v = 0#n) := by
  have hcases : f = 1#32 ∨ f = 0#32 := by bv_omega
  rcases hcases with rfl | rfl
  · simp
  · exact ⟨fun h _ => h.symm, fun h => (h rfl).symm⟩

/-- SAVE after an accepted RESTORE gives back eight fields, and the value of each slot as it was read (R137). -/
theorem savedImage_of_restored {s t : State} (hgood : imageBad s.img = false) (hx : t.x = imgX s.img)
    (hd : t.d = imgD s.img) (hF : t.gcF = imgGcF s.img) (hD : t.gcD = imgGcD s.img) :
    t.savedImage = imgPort s.img ↔
      ((imgPort s.img).extractLsb' 192 32 = 0#32 → (imgPort s.img).extractLsb' 256 32 = 0#32) ∧
      ((imgPort s.img).extractLsb' 224 32 = 0#32 → (imgPort s.img).extractLsb' 288 64 = 0#64) := by
  obtain ⟨h0, h1, h2, h3, h4, h5, h6, h7, h8, h9⟩ := t.savedImage_fields
  have hbad := mt (imageBad_iff s.img).2 (Bool.eq_false_iff.1 hgood)
  rw [imgFlagF_eq, imgFlagD_eq, not_or, not_or] at hbad
  obtain ⟨hflagF, hflagD, -⟩ := hbad
  rw [hx, imgX_eq] at h0 h1 h2 h3 h4
  rw [hd, imgD_eq] at h5
  rw [State.gcFValid, hF, imgGcF_eq, flagWord_isSome_slot hflagF] at h6
  rw [State.gcDValid, hD, imgGcD_eq, flagWord_isSome_slot hflagD] at h7
  rw [gcFField, hF, imgGcF_eq] at h8
  rw [gcDField, hD, imgGcD_eq] at h9
  rw [← getD_slot_eq_iff hflagF, ← getD_slot_eq_iff hflagD, ← h8, ← h9]
  constructor
  · intro h
    rw [h]
    exact ⟨rfl, rfl⟩
  · rintro ⟨hvalueF, hvalueD⟩
    exact eq_of_image_fields h0 h1 h2 h3 h4 h5 h6 h7 hvalueF hvalueD

/-- Settles O26: RESTORE reads the image into the registers, and SAVE answers the image of the registers. -/
theorem restoreSaveRoundTrip : Obligations.RestoreSaveRoundTrip := by
  intro s hwf hgood p
  obtain ⟨t, ht, hready, himg, hx, hd, hF, hD⟩ : ∃ t, exec .restore s = .next t ∧ t.ready = true ∧ t.img = s.img ∧
      t.x = imgX s.img ∧ t.d = imgD s.img ∧ t.gcF = imgGcF s.img ∧ t.gcD = imgGcD s.img :=
    ⟨_, exec_restore_good hgood, State.respond_ready .., State.respond_img .., State.respond_x .., State.respond_d ..,
      State.respond_gcF .., State.respond_gcD ..⟩
  obtain ⟨u, r, hu, hrsp, hok, hr⟩ := exec_save_image hready (himg ▸ hwf)
  refine ⟨t, u, r, ht, hu, hrsp, hok, ?_⟩
  rw [hr]
  exact savedImage_of_restored hgood hx hd hF hD

end Sys2Proof.Machine
end

section
/-! PROOFS. The sequencer's lines as steps, and the sequencer as the algorithm (R95, R97, R98, R100): each phase issues
the micro-operations of its part of the algorithm and reaches the next one in the state that they leave. -/

namespace Sys2Proof.Machine

theorem inputsTick_of_holdsCommand {l : List PortInput} (h : holdsCommand l = true) : inputsTick l = l := by
  cases l with
  | nil => rfl
  | cons p l =>
    cases p with
    | command => rfl
    | idle | reset => cases h

theorem ne_reset_of_holdsCommand {l : List PortInput} (h : holdsCommand l = true) (rest : List PortInput) :
    l ≠ .reset :: rest := by
  rintro rfl
  cases h

/-- A busy block whose multiplier is idle and whose owner holds what it presents next: the next step is the sequencer's.
-/
structure SequencerMoves (s : State) (k : Task) : Prop where
  build  : admitted s.build = true
  uop    : s.uop = none
  task   : s.task = some k
  inputs : holdsCommand s.inputs = true

/-- The state with other sequencer registers, the response of the step before gone. -/
def State.withSq (s : State) (q : Sequencer) : State := { s with rsp := none, sq := q }

section
variable {s : State} {k : Task} {run : Instr → State → Host.Outcome State Fault Refusal} (hs : SequencerMoves s k)
include hs

theorem SequencerMoves.tick : s.tick = s.withSq s.sq := by
  rw [State.tick, inputsTick_of_holdsCommand hs.inputs]
  rfl

theorem SequencerMoves.step_eq : stepWith run s = .next (seqLine k (s.withSq s.sq)) := by
  rw [stepWith_line hs.build (ne_reset_of_holdsCommand hs.inputs) hs.uop hs.task, hs.tick]

/-- A line of the table is a step of either level (R100). -/
theorem SequencerMoves.step_eq_of_line {u : Option MicroOp} {q : Sequencer} (h : Line s.build k s.sq u q) :
    stepWith run s = .next { s with rsp := none, uop := u.map (MicroOp.word s.build), sq := q } := by
  rw [hs.step_eq, seqLine_eq_of_line (s := s.withSq s.sq) h hs.uop]
  rfl

theorem SequencerMoves.step_eq_of_done (hp : s.sq.phase = .done) :
    stepWith run s = .next ((s.withSq { s.sq with phase := .idle }).complete k) := by
  rw [hs.step_eq, seqLine_of_done (s := s.withSq s.sq) hp]
  rfl

end

/-- Settles O39: each line of the table is the line of the statement. -/
theorem sequencerLines : Obligations.SequencerLines := by
  intro s k ha hu hk hin N W q go
  have hs : SequencerMoves s k := ⟨ha, hu, hk, hin⟩
  have hidle : ∀ {q'}, Line s.build k s.sq none q' → step s = go none q' := fun h => hs.step_eq_of_line h
  have hissue : ∀ {m q'}, Line s.build k s.sq (some m) q' → step s = go (some (m.word s.build)) q' :=
    fun h => hs.step_eq_of_line h
  refine ⟨fun hp => hidle (.start hp), fun hp hv => hidle (.finish hp hv),
    fun hp hv hmi hf => hidle (.squaring hp hv (hmi.symm ▸ lt_irrefl _) hf),
    fun hp hv hmi hf => hidle (.linear hp hv (hmi.symm ▸ lt_irrefl _) hf),
    fun hp hv hmi => hidle (.digit hp hv hmi), fun hp hrep => hissue (.apply hp hrep),
    fun hp hrep => hidle (.applied hp hrep), fun hp => hissue (.load hp), fun hp hk => hissue (.align hp hk),
    fun hp hk => hidle (.aligned hp hk), fun hp hbit => ?_, fun hp hbit => hidle (.bitClear hp hbit),
    fun hp => hissue (.square hp), fun hp hlin => hissue (.linearApply hp hlin),
    fun hp hlin => hidle (.linearDone hp hlin), fun hp => hs.step_eq_of_done hp⟩
  rw [hissue (.bitSet hp hbit)]
  simp only [go, ne_eq, ite_not]
  rfl

end Sys2Proof.Machine
end

section
/-! PROOFS. The sequencer issues the algorithm (R95, R97, R98, R100): each phase issues the micro-operations of its part
and reaches the next one in the state that they leave. -/

namespace Sys2Proof.Machine

/-! ### Runs at the micro-operation level -/

/-- Finitely many steps lead from one state to another and put these words on the multiplier's port. -/
def Runs (s : State) (ws : List Nat) (t : State) : Prop := ∃ n, microRun n s = .next t ∧ microTrace n s = ws

theorem microRun_succ {s u : State} (h : microStep s = .next u) (n : Nat) : microRun (n + 1) s = microRun n u := by
  rw [microRun, h]

theorem microTrace_succ {s u : State} (h : microStep s = .next u) (n : Nat) :
    microTrace (n + 1) s = s.uop.toList ++ microTrace n u := by
  rw [microTrace, h]

theorem Runs.refl (s : State) : Runs s [] s := ⟨0, rfl, rfl⟩

theorem Runs.cons {s u t : State} {ws : List Nat} (h : microStep s = .next u) (hr : Runs u ws t) :
    Runs s (s.uop.toList ++ ws) t := by
  obtain ⟨n, hrun, htrace⟩ := hr
  exact ⟨n + 1, by rw [microRun_succ h, hrun], by rw [microTrace_succ h, htrace]⟩

/-- A step from an idle multiplier adds no word. -/
theorem Runs.cons_idle {s u t : State} {ws : List Nat} (h : microStep s = .next u) (hu : s.uop = none)
    (hr : Runs u ws t) : Runs s ws t := by
  have := hr.cons h
  rwa [hu] at this

theorem Runs.trans {s u t : State} {ws ws' : List Nat} (h : Runs s ws u) (h' : Runs u ws' t) :
    Runs s (ws ++ ws') t := by
  obtain ⟨n, hrun, htrace⟩ := h
  induction n generalizing s ws with
  | zero =>
    cases hrun
    cases htrace
    exact h'
  | succ n ih =>
    cases hstep : microStep s with
    | next v =>
      rw [microRun_succ hstep] at hrun
      rw [microTrace_succ hstep] at htrace
      rw [← htrace, List.append_assoc]
      exact (ih hrun rfl).cons hstep
    | fault r => cases r
    | refused r => rw [microRun, hstep] at hrun; cases hrun

/-! ### One line -/

/-- The same with a micro-operation on the multiplier's port. -/
def State.offer (s : State) (q : Sequencer) (m : MicroOp) : State := { s.withSq q with uop := some (m.word s.build) }

theorem State.withSq_setUop {s : State} (h : s.uop = none) (q : Sequencer) :
    { s.withSq q with uop := none } = s.withSq q := by
  rw [← h]
  rfl

theorem applyMicro_withSq (m : MicroOp) (s : State) (q : Sequencer) :
    applyMicro m (s.withSq q) = (applyMicro m s).withSq q := by
  cases m <;> rfl

theorem SequencerMoves.withSq {s : State} {k : Task} (hs : SequencerMoves s k) (q : Sequencer) :
    SequencerMoves (s.withSq q) k := ⟨hs.build, hs.uop, hs.task, hs.inputs⟩

theorem SequencerMoves.runMicros {s : State} {k : Task} (hs : SequencerMoves s k) (ms : List MicroOp) :
    SequencerMoves (runMicros ms s) k := by
  obtain ⟨x, acc, ma, mb, mw, h⟩ := runMicros_frame ms s
  rw [h]
  exact ⟨hs.build, hs.uop, hs.task, hs.inputs⟩

/-- From registers `q` the sequencer issues `ms` and comes to registers `q'`, in the state that `ms` leaves. -/
def Reaches (s : State) (q : Sequencer) (ms : List MicroOp) (q' : Sequencer) : Prop :=
  Runs (s.withSq q) (ms.map (MicroOp.word s.build)) ((runMicros ms s).withSq q')

theorem Reaches.refl (s : State) (q : Sequencer) : Reaches s q [] q := Runs.refl _

theorem Reaches.trans {s : State} {q q' q'' : Sequencer} {ms ns : List MicroOp} (h : Reaches s q ms q')
    (h' : Reaches (runMicros ms s) q' ns q'') : Reaches s q (ms ++ ns) q'' := by
  rw [Reaches, List.map_append, runMicros_append]
  rw [Reaches, runMicros_build] at h'
  exact Runs.trans h h'

section
variable {s : State} {k : Task} {q q' : Sequencer} (hs : SequencerMoves s k)
include hs

/-- A line that issues nothing is one step. -/
theorem SequencerMoves.reaches_silent (h : Line s.build k q none q') : Reaches s q [] q' := by
  refine Runs.cons_idle ?_ hs.uop (Runs.refl _)
  rw [microStep, (hs.withSq q).step_eq_of_line h]
  exact congrArg _ (s.withSq_setUop hs.uop q')

/-- The micro-operation that a line has put on the port is one step, the multiplier's (R52, R66). -/
theorem SequencerMoves.microStep_offer {m : MicroOp} (hm : m.issuable s) (q : Sequencer) :
    microStep (s.offer q m) = .next ((applyMicro m s).withSq q) := by
  have hissuable : m.issuable (s.offer q m) := by cases m <;> exact hm
  have htake : (s.offer q m).takeUop = s.withSq q := by
    rw [State.takeUop, State.tick, inputsTick_of_holdsCommand (l := (s.offer q m).inputs) hs.inputs]
    exact s.withSq_setUop hs.uop q
  rw [microStep, stepWith_microOp (s := s.offer q m) hs.build (ne_reset_of_holdsCommand hs.inputs) rfl]
  exact (takeMicroOp_word hissuable).trans (by rw [htake, applyMicro_withSq])

/-- A line that issues a micro-operation is two steps, the sequencer's and the multiplier's (R52). -/
theorem SequencerMoves.reaches_issue {m : MicroOp} (h : Line s.build k q (some m) q') (hm : m.issuable s) :
    Reaches s q [m] q' := by
  have hsequencer : microStep (s.withSq q) = .next (s.offer q' m) := (hs.withSq q).step_eq_of_line h
  exact Runs.cons_idle hsequencer hs.uop ((Runs.refl _).cons (hs.microStep_offer hm q'))

end

theorem MicroOp.issuable.applyMicro {m : MicroOp} {s : State} (h : m.issuable s) (m' : MicroOp) :
    m.issuable (applyMicro m' s) := by
  cases m with
  | mulvecT | loada => simpa only [MicroOp.issuable, applyMicro_build] using h
  | mulvecA | squarea => exact applyMicro_maWritten m' h

theorem runMicros_maWritten (ms : List MicroOp) {s : State} (h : s.maWritten = true) :
    (runMicros ms s).maWritten = true := by
  induction ms generalizing s with
  | nil => exact h
  | cons m ms ih => exact ih (applyMicro_maWritten m h)

/-- A phase that counts a register down and issues the same micro-operation each time. -/
theorem SequencerMoves.reaches_countdown {s : State} {k : Task} (hs : SequencerMoves s k) {w : Nat}
    {f : BitVec w → Sequencer} {m : MicroOp} (hm : m.issuable s)
    (hline : ∀ c, c ≠ 0#w → Line s.build k (f c) (some m) (f (c - 1#w))) (c : BitVec w) :
    Reaches s (f c) (List.replicate c.toNat m) (f 0#w) := by
  induction hn : c.toNat generalizing s c with
  | zero =>
    obtain rfl : c = 0#w := BitVec.eq_of_toNat_eq (hn.trans BitVec.toNat_zero.symm)
    exact .refl ..
  | succ n ih =>
    have hc : c ≠ 0#w := by
      rintro rfl
      rw [BitVec.toNat_zero] at hn
      cases hn
    have hpred := toNat_sub_one_add_one hc
    have hnext := ih (s := applyMicro m s) (hs.runMicros [m]) (hm.applyMicro m)
      (by rw [applyMicro_build]; exact hline) (c - 1#w) (by omega)
    exact (hs.reaches_issue (hline c hc) hm).trans hnext

/-! ### The phases -/

section
variable {k : Task}

/-- The phases `FB_BIT` and `FB_SQ` are the loop of the squaring fallback (R97). -/
theorem SequencerMoves.reaches_squaringLoop {fuel : Nat} {s : State} (hs : SequencerMoves s k) {q : Sequencer}
    (hp : q.phase = .fbBit) (hv : q.v ≠ 0#64) (hlt : q.v.toNat < 2 ^ fuel) (hw : s.maWritten = true) :
    ∃ q', q'.phase = .done ∧ Reaches s q (squaringLoop fuel q.v) q' := by
  induction fuel generalizing s q with
  | zero => exact absurd (BitVec.eq_of_toNat_eq (by rw [BitVec.toNat_zero]; omega)) hv
  | succ fuel ih =>
    have hhalf : (q.v >>> 1).toNat < 2 ^ fuel := by rw [toNat_ushiftRight_eq_div]; omega
    have hrest : q.v >>> 1 ≠ 0#64 → ∀ {s : State}, SequencerMoves s k → s.maWritten = true →
        ∃ q', q'.phase = .done ∧ Reaches s { q with v := q.v >>> 1, phase := .fbSq } (.squarea :: squaringLoop fuel (q.v >>> 1)) q' := by
      intro hne s hs hw
      obtain ⟨q', hdone, hloop⟩ := ih (s := applyMicro .squarea s) (hs.runMicros [.squarea])
        (q := { q with v := q.v >>> 1, phase := .fbBit }) rfl hne hhalf hw
      exact ⟨q', hdone, (hs.reaches_issue (.square rfl) hw).trans hloop⟩
    rw [squaringLoop]
    cases hbit : q.v.getLsbD 0 with
    | true =>
      have hissue := hs.reaches_issue (.bitSet hp hbit) hw
      by_cases hne : q.v >>> 1 = 0#64
      · rw [if_pos hne] at hissue ⊢
        exact ⟨_, rfl, hissue⟩
      · rw [if_neg hne] at hissue ⊢
        obtain ⟨q', hdone, hloop⟩ := hrest hne (hs.runMicros [.mulvecA]) hw
        exact ⟨q', hdone, hissue.trans hloop⟩
    | false =>
      have hne : q.v >>> 1 ≠ 0#64 := by
        intro h
        have hsplit := toNat_eq_getLsbD_zero_add q.v
        rw [hbit, h] at hsplit
        exact hv (BitVec.eq_of_toNat_eq hsplit)
      obtain ⟨q', hdone, hloop⟩ := hrest hne hs hw
      rw [if_neg hne]
      exact ⟨q', hdone, (hs.reaches_silent (.bitClear hp hbit)).trans hloop⟩

/-- From `DIGIT` past the last entry the sequencer issues the fallback of the build (R97, R98). -/
theorem SequencerMoves.reaches_fallback {s : State} (hs : SequencerMoves s k) {q : Sequencer} (hp : q.phase = .digit)
    (hv : q.v ≠ 0#64) (hmi : ¬ q.mi < s.build.N) (hlt : q.v.toNat * 2 ^ s.build.W < 2 ^ 64) :
    ∃ q', q'.phase = .done ∧ Reaches s q (fallback s.build q.tsel q.v) q' := by
  have hN := one_le_N_of_admitted hs.build
  have hW : s.build.W ≤ 64 := ((admitted_iff _).1 hs.build).1.2.1
  have hlast : s.build.N - 1 < s.build.N := by omega
  unfold fallback
  cases hf : s.build.fallback with
  | squaring =>
    have hload : Reaches s q [.loada q.tsel (s.build.N - 1)] { q with k := BitVec.ofNat 7 s.build.W, phase := .fbAlign } :=
      (hs.reaches_silent (.squaring hp hv hmi hf)).trans (hs.reaches_issue (.load rfl) hlast)
    have hcount : (BitVec.ofNat 7 s.build.W).toNat = s.build.W := by
      rw [BitVec.toNat_ofNat, Nat.mod_eq_of_lt (by omega)]
    have hsload := hs.runMicros [.loada q.tsel (s.build.N - 1)]
    have halign := hsload.reaches_countdown (f := fun c => { q with k := c, phase := .fbAlign }) (m := .squarea)
      rfl (fun c hc => .align rfl hc) (BitVec.ofNat 7 s.build.W)
    rw [hcount] at halign
    have hsalign := hsload.runMicros (List.replicate s.build.W .squarea)
    have haligned := halign.trans (hsalign.reaches_silent (.aligned rfl rfl))
    rw [List.append_nil] at haligned
    have hwritten := runMicros_maWritten (List.replicate s.build.W .squarea)
      (s := applyMicro (.loada q.tsel (s.build.N - 1)) s) rfl
    obtain ⟨q', hdone, hloop⟩ := hsalign.reaches_squaringLoop (q := { q with k := 0#7, phase := .fbBit }) rfl hv
      q.v.isLt hwritten
    exact ⟨q', hdone, hload.trans (haligned.trans hloop)⟩
  | linear =>
    have hcount : (q.v <<< s.build.W).toNat = q.v.toNat * 2 ^ s.build.W := by
      rw [BitVec.toNat_shiftLeft, Nat.shiftLeft_eq, Nat.mod_eq_of_lt hlt]
    have hloop := hs.reaches_countdown (f := fun c => { q with lin := c, v := 0#64, phase := .fbLin })
      (m := .mulvecT q.tsel (s.build.N - 1)) hlast (fun c hc => .linearApply rfl hc) (q.v <<< s.build.W)
    rw [hcount] at hloop
    have hend := (hs.runMicros (fallbackLinear s.build q.tsel q.v)).reaches_silent (.linearDone (q := {
      q with lin := 0#64, v := 0#64, phase := .fbLin }) rfl rfl)
    have hall := (hs.reaches_silent (.linear hp hv hmi hf)).trans (hloop.trans hend)
    rw [List.append_nil] at hall
    exact ⟨_, rfl, hall⟩

theorem digit_lt (c : Config) (v : BitVec 64) : digit c v < 2 ^ 64 := (Nat.mod_le ..).trans_lt v.isLt

/-- The phases `DIGIT` and `APPLY` are the table phase of the algorithm (R95). -/
theorem SequencerMoves.reaches_tablePhase {left : Nat} {s : State} (hs : SequencerMoves s k) {q : Sequencer}
    (hp : q.phase = .digit) (hmi : left + q.mi = s.build.N) (hlt : q.v.toNat * 2 ^ (s.build.W * q.mi) < 2 ^ 64) :
    ∃ q', q'.phase = .done ∧ Reaches s q (tablePhase s.build q.tsel left q.mi q.v) q' := by
  induction left generalizing s q with
  | zero =>
    rw [tablePhase]
    by_cases hv : q.v = 0#64
    · rw [if_pos hv]
      exact ⟨_, rfl, hs.reaches_silent (.finish hp hv)⟩
    · have hW : s.build.W ≤ s.build.W * q.mi :=
        Nat.le_mul_of_pos_right _ (by have := one_le_N_of_admitted hs.build; omega)
      have hpow := Nat.mul_le_mul_left q.v.toNat (Nat.pow_le_pow_right Nat.two_pos hW)
      rw [if_neg hv]
      exact hs.reaches_fallback hp hv (by omega) (by omega)
  | succ left ih =>
    rw [tablePhase]
    by_cases hv : q.v = 0#64
    · rw [if_pos hv]
      exact ⟨_, rfl, hs.reaches_silent (.finish hp hv)⟩
    · have hindex : q.mi < s.build.N := by omega
      have hcount : (BitVec.ofNat 64 (digit s.build q.v)).toNat = digit s.build q.v := by
        rw [BitVec.toNat_ofNat, Nat.mod_eq_of_lt (digit_lt ..)]
      have happly := hs.reaches_countdown (f := fun c => { q with rep := c, phase := .apply })
        (m := .mulvecT q.tsel q.mi) hindex (fun c hc => .apply rfl hc) (BitVec.ofNat 64 (digit s.build q.v))
      rw [hcount] at happly
      have hdigit := (hs.reaches_silent (.digit hp hv hindex)).trans happly
      have hs' := hs.runMicros (List.replicate (digit s.build q.v) (.mulvecT q.tsel q.mi))
      have happlied := hs'.reaches_silent (.applied (q := { q with rep := 0#64, phase := .apply }) rfl rfl)
      rw [runMicros_build] at happlied
      obtain ⟨q', hdone, hnext⟩ := ih hs' (q := {
        q with mi := q.mi + 1, v := q.v >>> s.build.W, rep := 0#64, phase := .digit }) rfl
        (by rw [runMicros_build]; exact Nat.succ_add_eq_add_succ left q.mi ▸ hmi) (by
          rw [runMicros_build, toNat_ushiftRight_eq_div, Nat.mul_succ, Nat.add_comm, pow_add, ← Nat.mul_assoc]
          exact (Nat.mul_le_mul_right _ (Nat.div_mul_le_self ..)).trans_lt hlt)
      rw [runMicros_build] at hnext
      rw [if_neg hv]
      exact ⟨q', hdone, hdigit.trans (happlied.trans hnext)⟩

/-- The registers at the start of a jump (R100, `IDLE`). -/
def startRegisters (k : Task) (q : Sequencer) : Sequencer :=
  { q with tsel := k.sel, v := k.distance, mi := 0, phase := .digit }

/-- A jump of a command in progress: from `IDLE` the sequencer issues the algorithm and ends in `DONE` (R95, R100). -/
theorem SequencerMoves.runs_jump {s : State} (hs : SequencerMoves s k) (hp : s.sq.phase = .idle) :
    ∃ q, q.phase = .done ∧
      Runs s ((jumpTrace s.build k.sel k.distance).map (MicroOp.word s.build)) ((jump k.sel k.distance s).withSq q) := by
  have hstart : microStep s = .next (s.withSq (startRegisters k s.sq)) :=
    (hs.step_eq_of_line (.start hp)).trans (congrArg _ (s.withSq_setUop hs.uop _))
  obtain ⟨q, hdone, hreach⟩ := hs.reaches_tablePhase (left := s.build.N) (q := startRegisters k s.sq) rfl rfl
    (by rw [startRegisters, Nat.mul_zero, pow_zero, Nat.mul_one]; exact k.distance.isLt)
  exact ⟨q, hdone, Runs.cons_idle hstart hs.uop hreach⟩

end

theorem map_word_eq_map_encode (c : Config) (ms : List MicroOp) :
    (ms.map (MicroOp.word c)).map CodeWord.microOp = ms.map fun m => encode c m.toInstr := by
  rw [List.map_map]
  exact List.map_congr_left fun m _ => (encode_toInstr c m).symm

/-- Settles O40: the jump's run, its words as encoded micro-operations. -/
theorem sequencerIssuesAlgorithm : Obligations.SequencerIssuesAlgorithm := by
  intro s k ha hu hk hp hin
  obtain ⟨q, hdone, n, hrun, htrace⟩ := SequencerMoves.runs_jump ⟨ha, hu, hk, hin⟩ hp
  exact ⟨n, q, hrun, hdone, by rw [htrace, map_word_eq_map_encode]⟩

end Sys2Proof.Machine
end

section
/-! PROOFS. The micro-operation level refines the command level (R8): the engine starts the jumps of a command one after
the other and completes it in the state that the command level gives. -/

namespace Sys2Proof.Machine

/-- A jump reads and writes neither the command in progress nor the sequencer and the response (R90). -/
theorem jump_setControl (t : TableSel) (v : BitVec 64) (s : State) (k : Option Task) (q : Sequencer)
    (r : Option Response) :
    jump t v { s with task := k, sq := q, rsp := r } = { jump t v s with task := k, sq := q, rsp := r } := by
  refine (runMicros_setControl (jumpTrace s.build t v) s s.d k q r).trans ?_
  rw [← jump_d t v s]
  rfl

/-- A jump of a command in progress, and what the engine does when it is signalled as done (R95, R100). -/
theorem SequencerMoves.runs_jump_complete {s : State} {k : Task} (hs : SequencerMoves s k) (hp : s.sq.phase = .idle) :
    ∃ q, q.phase = .idle ∧ Runs s ((jumpTrace s.build k.sel k.distance).map (MicroOp.word s.build))
      (((jump k.sel k.distance s).withSq q).complete k) := by
  obtain ⟨q, hdone, hrun⟩ := hs.runs_jump hp
  have hstep := ((hs.runMicros (jumpTrace s.build k.sel k.distance)).withSq q).step_eq_of_done (run := begin) hdone
  have hall := hrun.trans (Runs.cons_idle hstep (hs.runMicros _).uop (Runs.refl _))
  rw [List.append_nil] at hall
  exact ⟨{ q with phase := .idle }, rfl, hall⟩

/-- The same from a state that a command in progress, idle sequencer registers and a response are put into. -/
theorem runs_task {s : State} (ha : admitted s.build = true) (hu : s.uop = none) (hin : holdsCommand s.inputs = true)
    (k : Task) {q : Sequencer} (hq : q.phase = .idle) (r : Option Response) :
    ∃ q', q'.phase = .idle ∧ Runs { s with task := some k, sq := q, rsp := r }
      ((jumpTrace s.build k.sel k.distance).map (MicroOp.word s.build))
      (State.complete { jump k.sel k.distance s with task := some k, sq := q', rsp := none } k) := by
  obtain ⟨q', hq', hrun⟩ := SequencerMoves.runs_jump_complete (s := { s with task := some k, sq := q, rsp := r })
    ⟨ha, hu, rfl, hin⟩ hq
  rw [jump_setControl] at hrun
  exact ⟨q', hq', hrun⟩

/-- From the start of an accepted command, the micro-operation level comes to the state that the command level gives. -/
def Refines (i : Instr) (a : State) : Prop :=
  ∃ u t q, begin i a = .next u ∧ exec i a = .next t ∧ q.phase = Phase.idle ∧
    Runs u ((commandTrace a i).map (MicroOp.word a.build)) { t with sq := q }

/-- A command that starts no jump is one step at both levels. -/
theorem Refines.of_begin_eq_exec {i : Instr} {a : State} (hi : i.isCommand = true) (hp : a.sq.phase = .idle)
    (hbegin : begin i a = exec i a) (htrace : commandTrace a i = []) : Refines i a := by
  obtain ⟨t, ht, hframe⟩ := exec_command_frame hi a
  refine ⟨t, t, t.sq, hbegin.trans ht, ht, by rw [hframe.sq, hp], ?_⟩
  rw [htrace]
  exact .refl t

section
variable {a : State} (ha : admitted a.build = true) (hu : a.uop = none) (hp : a.sq.phase = .idle)
  (hin : holdsCommand a.inputs = true)
include ha hu hp hin

/-- A command that is one jump and its completion. -/
theorem refines_jump {i : Instr} {k : Task} (hbegin : begin i a = .next { a with task := some k })
    (hexec : exec i a = .next ((jump k.sel k.distance a).complete k))
    (htrace : commandTrace a i = jumpTrace a.build k.sel k.distance)
    (hcomplete : ∀ (s : State) (q : Sequencer),
      State.complete { s with task := some k, sq := q, rsp := none } k = { s.complete k with sq := q }) :
    Refines i a := by
  obtain ⟨q, hq, hrun⟩ := runs_task ha hu hin k hp a.rsp
  refine ⟨_, _, q, hbegin, hexec, hq, ?_⟩
  rw [htrace, ← hcomplete]
  exact hrun

theorem refines_skip (n : Operand) : Refines (.skip n) a := by
  cases hready : a.ready with
  | false =>
    refine .of_begin_eq_exec rfl hp ?_ (by simp [commandTrace, hready])
    simp [begin, beginSkip, exec_skip_notReady n hready, hready]
  | true =>
    exact refines_jump ha hu hp hin (k := .skip n) (if_pos hready) (exec_skip n hready) (if_pos hready)
      fun _ _ => rfl

theorem refines_skipsub (n : Operand) : Refines (.skipsub n) a := by
  cases hready : a.ready with
  | false =>
    refine .of_begin_eq_exec rfl hp ?_ (by simp [commandTrace, hready])
    simp [begin, beginSkipsub, exec_skipsub_notReady n hready, hready]
  | true =>
    exact refines_jump ha hu hp hin (k := .skipsub n) (if_pos hready) (exec_skipsub n hready) (if_pos hready)
      fun _ _ => rfl

/-- INIT runs its subsequence jump, then its offset jump (R111). -/
theorem refines_init (seed subsequence offset : Operand) : Refines (.init seed subsequence offset) a := by
  obtain ⟨q, hq, hsub⟩ := runs_task (s := a.seedExpand seed) ha hu hin (.initSub subsequence offset) hp a.rsp
  obtain ⟨q', hq', hoff⟩ := runs_task (s := jump .sub subsequence (a.seedExpand seed)) (by rwa [jump_build])
    (by rwa [jump_uop]) (by rwa [jump_inputs]) (.initOff offset) hq none
  have hbuild : (jump .sub subsequence (a.seedExpand seed)).build = a.build := jump_build ..
  refine ⟨_, _, q', rfl, exec_init .., hq', ?_⟩
  have hwords := congrArg (fun c => (jumpTrace c .step offset).map (MicroOp.word c)) hbuild
  rw [commandTrace, List.map_append, ← hwords]
  exact hsub.trans hoff

theorem refines {i : Instr} (hi : i.isCommand = true) : Refines i a := by
  cases i with
  | init seed subsequence offset => exact refines_init ha hu hp hin seed subsequence offset
  | skip n => exact refines_skip ha hu hp hin n
  | skipsub n => exact refines_skipsub ha hu hp hin n
  | _ => exact .of_begin_eq_exec hi hp rfl rfl

end

/-- What a command issues depends on the build and on `ready` only. -/
theorem commandTrace_accept (i : Instr) (s : State) (w : BitVec 196) (img : BitVec 352) (rest : List PortInput) :
    commandTrace (s.accept w img rest) i = commandTrace s i := by
  cases i <;> rfl

/-- Settles O41: the first step accepts the command, and the rest of the run refines it. -/
theorem microLevelRefinesCommandLevel : Obligations.MicroLevelRefinesCommandLevel := by
  intro s w img rest ha hu hk hp hin hrest
  have hi := decodeCommand_isCommand w
  obtain ⟨u, t, q, hbegin, hexec, hq, n, hrun, htrace⟩ :=
    refines (a := s.accept w img rest) ha hu hp hrest hi
  have hmicro : microStep s = .next u := (stepWith_command ha hu hk hin).trans hbegin
  obtain ⟨r, hr⟩ := (commandFrame_of_exec hi hexec).rsp
  refine ⟨t, n + 1, q, (stepWith_command ha hu hk hin).trans hexec, by rw [hr]; rfl, Nat.succ_pos n, ?_, hq, ?_⟩
  · rw [microRun_succ hmicro, hrun]
  · rw [microTrace_succ hmicro, hu, htrace, commandTrace_accept, ← map_word_eq_map_encode]
    rfl

end Sys2Proof.Machine
end
